-- ==== Sys2Proof/Word.lean ====
section
/-!
DEFINITION. The word types of the core, named as the spec names them. Only what the spec treats as
bits is a bit vector: a sample (30_encoding.md R39), an event word (R45), a byte of the byte stream
(10_state.md R13), the status word (R17). Bin indices, symbols, chunk widths and frequencies are
integers (00_scope.md R9) and stand as `Nat` or `Int`.
-/
namespace Sys2Proof

/-- One byte of the byte stream, the value of `o_data` (10_state.md R13). -/
abbrev Byte := BitVec 8

/-- An event word `EW[7:0]` (30_encoding.md R45). -/
abbrev EventWord := BitVec 8

/-- The 16 bits on `s_data`, read as two's complement (30_encoding.md R39). -/
abbrev Sample := BitVec 16

/-- The status word `st[15:0]` (10_state.md R17). -/
abbrev StatusWord := BitVec 16

end Sys2Proof
end

