-- ==== Sys2Proof/Config.lean ====
section
/-!
DEFINITION. The elaboration parameters (00_scope.md R7), the ranges an elaboration checks
(70_reset_and_hazards.md R98), and the values the spec leaves free. A `Config` carries the proof that
its parameters are in range, so a configuration R98 refuses cannot be built.
-/
namespace Sys2Proof

/-- What a full packet buffer does (00_scope.md R7, `OVF_POLICY`). -/
inductive OvfPolicy where
  | hold
  | abort
deriving DecidableEq, Repr

/-- The parameters of 00_scope.md R7. Every frequency is a whole number of hertz, at least 0, by its
type; `OVF_POLICY` is HOLD or ABORT by its type; `TOL_HZ` is fixed (`tolHz`). -/
structure Params where
  /-- `SAMPLE_RATE_HZ`, called R -/
  sampleRateHz : Nat
  /-- `FRAME_N`, called N -/
  frameN : Nat
  /-- `START_HZ` -/
  startHz : Nat
  /-- `STEP_HZ` -/
  stepHz : Nat
  /-- `BITS` -/
  bits : Nat
  /-- `HS_START_HZ` -/
  hsStartHz : Nat
  /-- `HS_END_HZ` -/
  hsEndHz : Nat
  /-- `PKT_MAX` -/
  pktMax : Nat
  /-- `OVF_POLICY` -/
  ovfPolicy : OvfPolicy
  /-- `OUTQ_DEPTH` -/
  outqDepth : Nat
  /-- `PEAK_EPS`, a rational -/
  peakEps : Rat
  /-- `FRAME_LAT`, timing only: no rule of the model depends on it (R7, R108) -/
  frameLat : Nat
deriving DecidableEq, Repr

/-- `TOL_HZ`, fixed at 20 (00_scope.md R7). -/
def tolHz : Nat := 20

/-- The ranges of 00_scope.md R7, which 70_reset_and_hazards.md R98 has an elaboration check. -/
def Params.inRange (p : Params) : Bool :=
  decide (1 ≤ p.sampleRateHz) && decide (2 ≤ p.frameN) && decide (1 ≤ p.stepHz)
    && decide (1 ≤ p.bits) && decide (p.bits ≤ 16) && decide (1 ≤ p.pktMax)
    && decide (1 ≤ p.outqDepth) && decide (0 ≤ p.peakEps.num) && decide (p.frameLat < p.frameN)

/-- A configuration of the core: parameters in range. -/
structure Config extends Params where
  inRange : toParams.inRange = true
deriving DecidableEq, Repr

/-- Elaboration: parameters out of range are refused (70_reset_and_hazards.md R98; 93 I14). -/
def Config.elaborate (p : Params) : Option Config :=
  if h : p.inRange = true then some { toParams := p, inRange := h } else none

/-- The example configuration EX1 of 95_test_vectors.md. -/
def Config.ex1 : Config where
  sampleRateHz := 48000
  frameN := 375
  startHz := 1024
  stepHz := 256
  bits := 4
  hsStartHz := 8192
  hsEndHz := 8704
  pktMax := 64
  ovfPolicy := .hold
  outqDepth := 16
  peakEps := 0
  frameLat := 0
  inRange := by decide

/-- FREE VALUE (log 3). The bin an implementation's peak search answers for a frame without a clear
peak, when `PEAK_EPS` > 0 (40_spectral.md R54; 93 I2, I20). A function of the configuration and the
frame, as R54's `peakFn` is. No body: nothing can be proved of its value. -/
opaque Config.peakChoice : Config → List Sample → Nat

/-- FREE VALUE (log 5). What `{o_empty, o_last, o_data}` show at a clock edge while `o_valid` = 0
(10_state.md R16; 93 I7). -/
opaque Config.freeOut : Nat → BitVec 10

/-- FREE VALUE (log 5). What `fr_bin` shows at a clock edge while `fr_valid` = 0 (10_state.md R15;
93 I6). -/
opaque Config.freeFrBin : Nat → Nat

/-- FREE VALUE (log 5). What `fr_cls` shows at a clock edge while `fr_valid` = 0 (10_state.md R15;
93 I6). -/
opaque Config.freeFrCls : Nat → BitVec 2

end Sys2Proof
end

