-- ==== Sys2Proof/Syntax.lean ====
section
/-!
DEFINITION. The operations of the core: one constructor per row of spec/opcode_table.json. A
constructor's arguments are the bits its row leaves open (the zeros of its mask); the bits its row
fixes are the constructor.
-/
namespace Sys2Proof

/-- The core's operations, named by their event words (30_encoding.md R45 to R47). In the FRAME class
`full` = EW[3], `hs` = EW[1], `he` = EW[0]; in the OUT class `last` = EW[1]. -/
inductive Instr where
  /-- RESET, 44_control.md R77 -/
  | reset
  /-- SAMPLE, 40_spectral.md R51; its operand is `s_data` -/
  | sample
  /-- FR_IDLE_START, 43_framer.md R69 -/
  | frIdleStart (he : Bool)
  /-- FR_IDLE_OTHER, 43_framer.md R70 -/
  | frIdleOther (he : Bool)
  /-- FR_PKT_END, 43_framer.md R73 -/
  | frPktEnd (full hs : Bool)
  /-- FR_PKT_APPEND, 43_framer.md R71 -/
  | frPktAppend (hs : Bool)
  /-- FR_PKT_FULL, 43_framer.md R72 -/
  | frPktFull (hs : Bool)
  /-- OUT_BYTE, 44_control.md R80 -/
  | outByte (last : Bool)
  /-- OUT_EMPTY, 44_control.md R81 -/
  | outEmpty
  /-- CAPFAIL, 44_control.md R79 -/
  | capfail
  /-- PEAK, 40_spectral.md R52 -/
  | peak
  /-- BIN2HZ, 40_spectral.md R56 -/
  | bin2hz
  /-- QUANT, 41_quantizer.md R58 -/
  | quant
  /-- HS_START, 41_quantizer.md R60 -/
  | hsStart
  /-- HS_END, 41_quantizer.md R61 -/
  | hsEnd
  /-- CLASSIFY, 41_quantizer.md R62 -/
  | classify
  /-- EVENIDX, 43_framer.md R74 -/
  | evenidx
  /-- ASSEMBLE, 42_assembler.md R64 -/
  | assemble
  /-- FINALIZE, 43_framer.md R75 -/
  | finalize
  /-- DISPATCH, 43_framer.md R76 -/
  | dispatch
  /-- STOP, 44_control.md R78 -/
  | stop
deriving DecidableEq, Repr

end Sys2Proof
end

