-- ==== Sys2Proof/WellFormed.lean ====
section
/-!
DEFINITION. Well-formedness. The arguments of an `Instr` are exactly the bits its row leaves open, so
the one check left on a term is against the configuration: 30_encoding.md R43 says a frame can match
both handshakes only when the two windows overlap. On words, the check is R48's table of reserved
words, transcribed range by range (the decoder is written from R45 to R47 instead; Tests/ compares the
two). On parameters the check is `Params.inRange` (Config.lean).
-/
namespace Sys2Proof

/-- The two handshake windows overlap: `abs(HS_START_HZ - HS_END_HZ) < 2*TOL_HZ` (30_encoding.md
R43). -/
def Params.windowsOverlap (p : Params) : Bool :=
  decide (p.hsStartHz < p.hsEndHz + 2 * tolHz) && decide (p.hsEndHz < p.hsStartHz + 2 * tolHz)

/-- An operation the configured core can meet: a FRAME word with `hs` = `he` = 1 needs overlapping
handshake windows (30_encoding.md R43). -/
def Instr.wellFormed (p : Params) : Instr → Bool
  | .frIdleStart he => !he || p.windowsOverlap
  | .frPktEnd _ hs => !hs || p.windowsOverlap
  | .reset | .sample | .frIdleOther _ | .frPktAppend _ | .frPktFull _ | .outByte _ | .outEmpty
  | .capfail | .peak | .bin2hz | .quant | .hsStart | .hsEnd | .classify | .evenidx | .assemble
  | .finalize | .dispatch | .stop => true

/-- The reserved event words, the ranges of 30_encoding.md R48's table. -/
def reservedRanges : List (Nat × Nat) :=
  [(0x01, 0x1F), (0x21, 0x3F), (0xC1, 0xDF), (0x81, 0x9F), (0x48, 0x4B), (0x50, 0x5F), (0x61, 0x61),
    (0x64, 0x7F), (0xAA, 0xBF), (0xE0, 0xFF)]

/-- A word is reserved when it lies in one of R48's ranges. -/
def EventWord.reserved (w : EventWord) : Bool :=
  reservedRanges.any fun r => decide (r.1 ≤ w.toNat) && decide (w.toNat ≤ r.2)

end Sys2Proof
end

