-- ==== Sys2Proof/Decode.lean ====
section
/-!
DEFINITION. Decoding and encoding of event words (30_encoding.md R45 to R48). Decoding is total: a
word that names no operation is refused with the reason R48 gives for it.
-/
namespace Sys2Proof

/-- Why a word names no operation: the rows of 30_encoding.md R48's table. -/
inductive Reserved where
  /-- non-zero `EW[4:0]` in a class that has none (RESET, SAMPLE, CAPFAIL, STOP) -/
  | nonzeroLow
  /-- IDLE with `full` = 1 -/
  | idleFull
  /-- FRAME with `EW[4]` = 1 -/
  | frameHigh
  /-- OUT with `empty` = 1 and `last` = 0: the reserved beat of R42 -/
  | reservedBeat
  /-- OUT with `EW[4:2]` not 0 -/
  | outHigh
  /-- an unassigned function id -/
  | unassignedFunc
  /-- class `111` -/
  | reservedClass
deriving DecidableEq, Repr

/-- The class `EW[7:5]` as a number (30_encoding.md R45). -/
def ewClass (w : EventWord) : Nat := (w.extractLsb' 5 3).toNat

/-- The low field `EW[4:0]` as a number (30_encoding.md R45). -/
def ewLow (w : EventWord) : Nat := (w.extractLsb' 0 5).toNat

/-- A class whose low field must be zero. -/
def decodePlain (i : Instr) (w : EventWord) : Except Reserved Instr :=
  if ewLow w = 0 then .ok i else .error .nonzeroLow

/-- The FRAME class (30_encoding.md R46), from the bits full, fr, hs, he. -/
def decodeFrameBits : Bool → Bool → Bool → Bool → Except Reserved Instr
  | true, false, _, _ => .error .idleFull
  | false, false, true, he => .ok (.frIdleStart he)
  | false, false, false, he => .ok (.frIdleOther he)
  | full, true, hs, true => .ok (.frPktEnd full hs)
  | false, true, hs, false => .ok (.frPktAppend hs)
  | true, true, hs, false => .ok (.frPktFull hs)

/-- The FRAME class: `EW[4]` must be 0 (30_encoding.md R46, R48). -/
def decodeFrame (w : EventWord) : Except Reserved Instr :=
  if w.getLsbD 4 then .error .frameHigh
  else decodeFrameBits (w.getLsbD 3) (w.getLsbD 2) (w.getLsbD 1) (w.getLsbD 0)

/-- The OUT class, `EW[4:0] = {000, last, empty}` (30_encoding.md R45, R47). -/
def decodeOut (w : EventWord) : Except Reserved Instr :=
  if (w.extractLsb' 2 3).toNat = 0 then
    match w.getLsbD 1, w.getLsbD 0 with
    | last, false => .ok (.outByte last)
    | true, true => .ok .outEmpty
    | false, true => .error .reservedBeat
  else .error .outHigh

/-- The function ids of 30_encoding.md R47. -/
def decodeFunc : Nat → Except Reserved Instr
  | 0 => .ok .peak
  | 1 => .ok .bin2hz
  | 2 => .ok .quant
  | 3 => .ok .hsStart
  | 4 => .ok .hsEnd
  | 5 => .ok .classify
  | 6 => .ok .evenidx
  | 7 => .ok .assemble
  | 8 => .ok .finalize
  | 9 => .ok .dispatch
  | _ => .error .unassignedFunc

/-- The operation an event word names, or the reason it names none (30_encoding.md R45 to R48). -/
def decode (w : EventWord) : Except Reserved Instr :=
  match ewClass w with
  | 0 => decodePlain .reset w
  | 1 => decodePlain .sample w
  | 2 => decodeFrame w
  | 3 => decodeOut w
  | 4 => decodePlain .capfail w
  | 5 => decodeFunc (ewLow w)
  | 6 => decodePlain .stop w
  | _ => .error .reservedClass

/-- A FRAME word `{0b010, 0, full, fr, hs, he}` (30_encoding.md R46; 43_framer.md R68). -/
def frameBits (full fr hs he : Bool) : EventWord :=
  0b0100#4 ++ BitVec.ofBool full ++ BitVec.ofBool fr ++ BitVec.ofBool hs ++ BitVec.ofBool he

/-- An OUT word `{0b011, 000, last, empty}` (30_encoding.md R45, R47). -/
def outBits (last empty : Bool) : EventWord :=
  0b011000#6 ++ BitVec.ofBool last ++ BitVec.ofBool empty

/-- The event word of an operation (30_encoding.md R46, R47). Every operation is one word. -/
def encode : Instr → EventWord
  | .reset => 0x00#8
  | .sample => 0x20#8
  | .frIdleStart he => frameBits false false true he
  | .frIdleOther he => frameBits false false false he
  | .frPktEnd full hs => frameBits full true hs true
  | .frPktAppend hs => frameBits false true hs false
  | .frPktFull hs => frameBits true true hs false
  | .outByte last => outBits last false
  | .outEmpty => outBits true true
  | .capfail => 0x80#8
  | .peak => 0xA0#8
  | .bin2hz => 0xA1#8
  | .quant => 0xA2#8
  | .hsStart => 0xA3#8
  | .hsEnd => 0xA4#8
  | .classify => 0xA5#8
  | .evenidx => 0xA6#8
  | .assemble => 0xA7#8
  | .finalize => 0xA8#8
  | .dispatch => 0xA9#8
  | .stop => 0xC0#8

/-- The instruction the decoder reads from a row of the opcode table: an operation is one 8-bit word
(30_encoding.md R45), the low byte of `w`; bits at and above `nbits` are 0. -/
def decodeTableWord (nbits w : Nat) : Option Instr :=
  match decode (BitVec.ofNat 8 (w % 2 ^ nbits)) with
  | .ok i => some i
  | .error _ => none

end Sys2Proof
end

