-- ==== Sys2Proof/Machine/State.lean ====
section
/-!
DEFINITION. The state of the core as plain data (10_state.md R18), its ports (R13), the observation of
a run (60_exceptions.md R93), the model's own fields (log 6, 9, 10), the ways a step can stop, and the
state after reset (R25).
-/
namespace Sys2Proof.Machine

/-- `st.run` (10_state.md R17, R18). `STOPPED` and `HALTED` are the terminal states of
60_exceptions.md R89. -/
inductive Run where
  | run
  | stopped
  | halted
deriving DecidableEq, Repr

/-- `st.fr`, the framer state (10_state.md R18). -/
inductive Framer where
  | idle
  | inPkt
deriving DecidableEq, Repr

/-- An entry of the output queue (10_state.md R18; 30_encoding.md R42). The reserved beat of R42 is
no value of this type (93 I11). -/
inductive Beat where
  | byte (b : Byte) (last : Bool)
  | empty
deriving DecidableEq, Repr

/-- The record `st`, with exactly the fields of 10_state.md R18. -/
structure Core where
  /-- `st.run` -/
  run : Run
  /-- `st.fbuf`: the samples accepted since the last frame boundary, oldest first -/
  fbuf : List Sample
  /-- `st.fr` -/
  fr : Framer
  /-- `st.pkt`: the packet's collected bins, in arrival order -/
  pkt : List Nat
  /-- `st.povf` -/
  povf : Bool
  /-- `st.outq`: head first -/
  outq : List Beat
  /-- `st.err_cap` -/
  errCap : Bool
  /-- `st.err_pktovf` -/
  errPktovf : Bool
  /-- `st.err_outqovf` -/
  errOutqovf : Bool
  /-- `st.last_err` -/
  lastErr : BitVec 3
deriving DecidableEq, Repr

/-- The input ports at one clock edge (10_state.md R13). -/
structure Ports where
  rst : Bool
  sValid : Bool
  sData : Sample
  capErr : Bool
  cancel : Bool
  oReady : Bool
deriving DecidableEq, Repr

/-- What one `emit_fr(k, cls)` shows (10_state.md R15). -/
structure FrameReport where
  bin : Nat
  cls : BitVec 2
deriving DecidableEq, Repr

/-- The observation of a run so far (60_exceptions.md R93): the event words it took (30_encoding.md
R45 "a trace to record one"), its `emit_fr` calls, and the beats the consumer took, oldest first. -/
structure Obs where
  words : List EventWord
  frames : List FrameReport
  beats : List Beat
deriving DecidableEq, Repr

/-- MODEL FIELD (log 6). The operands of a function unit, or of a FRAME word, that is executed on its
own: "the FUNC units take the operands their rules name" (30_encoding.md R47). -/
structure UnitArgs where
  /-- the frame of PEAK -/
  frame : List Sample
  /-- the bin of BIN2HZ, QUANT, HS_START, HS_END, CLASSIFY and of a FRAME word -/
  bin : Nat
  /-- the list of bins of EVENIDX and FINALIZE -/
  bins : List Nat
  /-- the chunk width of ASSEMBLE -/
  width : Nat
  /-- the chunks of ASSEMBLE -/
  chunks : List Nat
  /-- the byte stream of DISPATCH -/
  bytes : List Byte
deriving DecidableEq, Repr

/-- MODEL FIELD (log 6). The value a function unit answered its caller. -/
inductive UnitResult where
  | none
  | bin (k : Nat)
  | hz (f : Rat)
  | symbol (s : Option Nat)
  | flag (b : Bool)
  | cls (c : BitVec 2)
  | bins (ks : List Nat)
  | bytes (bs : List Byte)
deriving DecidableEq, Repr

/-- The state of the machine: a configuration, which no step writes (10_state.md R23; log 1), the
record `st`, the ports, the observation, and the model's own fields. -/
structure State where
  /-- the elaboration parameters (00_scope.md R7) -/
  cfg : Config
  /-- the record `st` -/
  st : Core
  /-- MODEL FIELD (log 10): a RESET has happened (70_reset_and_hazards.md R96) -/
  booted : Bool
  /-- the input ports at the present clock edge -/
  ports : Ports
  /-- the debug frame port: the report of the present clock edge's frame step (10_state.md R15) -/
  frOut : Option FrameReport
  /-- the observation of the run -/
  obs : Obs
  /-- MODEL FIELD (log 6): operands of a unit executed on its own -/
  args : UnitArgs
  /-- MODEL FIELD (log 6): what the last such unit answered -/
  ret : UnitResult
  /-- MODEL FIELD (log 9): the events of the present clock edge still to be taken -/
  pending : List EventWord
  /-- MODEL FIELD (log 9): what the environment drives on the ports at the coming clock edges -/
  inputs : List Ports
  /-- MODEL FIELD (log 5): the number of the clock edge, which the free output values are read at -/
  freeCtr : Nat
deriving DecidableEq, Repr

/-- The ways the machine stops with a fault: none. The core never traps (60_exceptions.md, opening;
00_scope.md R12), so this type has no constructor; what 93 I11 to I13 treat as `fault` is excluded by
the types or by the invariant of 10_state.md R19. -/
inductive Fault
deriving DecidableEq, Repr

/-- The ways a step is refused. -/
inductive Refusal where
  /-- Raised by an arm of `exec` for an operation that has no meaning yet; safe. -/
  | notModelled (mnemonic : String)
  /-- Raised by `step` for a reserved event word, with R48's reason (30_encoding.md R48: a model "must
  refuse it and not guess a meaning"; 93 I10); safe. -/
  | reservedWord (w : EventWord) (why : Reserved)
  /-- Raised by `step` for any operation but RESET before the first RESET (70_reset_and_hazards.md
  R96; 93 I5); safe. -/
  | beforeReset (w : EventWord)
  /-- Raised by the FRAME, OUT and STOP operations for a word the core does not produce in the state
  at hand: its rule's operand conditions do not hold (30_encoding.md R46; 44_control.md R78, R80, R81;
  log 7); safe. No port input leads to it. -/
  | notProduced (w : EventWord)
  /-- Raised by PEAK executed on its own when its operand is not a frame of N samples (40_spectral.md
  R52; log 14); safe. -/
  | notAFrame
deriving DecidableEq, Repr

/-- The record after RESET (10_state.md R25; 44_control.md R77). -/
def Core.reset : Core where
  run := .run
  fbuf := []
  fr := .idle
  pkt := []
  povf := false
  outq := []
  errCap := false
  errPktovf := false
  errOutqovf := false
  lastErr := 0

/-- No input asserted. -/
def Ports.idle : Ports where
  rst := false
  sValid := false
  sData := 0
  capErr := false
  cancel := false
  oReady := false

/-- The machine right after RESET, for a given configuration. The fields outside `st` and the debug
port are the model's; log 6, 9, 10, 11, 17 name their values. -/
def State.resetWith (cfg : Config) : State where
  cfg := cfg
  st := Core.reset
  booted := true
  ports := Ports.idle
  frOut := none
  obs := { words := [], frames := [], beats := [] }
  args :=
    { frame := List.replicate cfg.frameN 0, bin := 0, bins := [], width := cfg.bits, chunks := [],
      bytes := [] }
  ret := .none
  pending := []
  inputs := []
  freeCtr := 0

/-- The machine right after RESET (10_state.md R25), in the example configuration EX1 of
95_test_vectors.md (DESIGN CHOICE, log 2: every parameter value is OPEN in the spec). -/
def State.reset : State := State.resetWith Config.ex1

end Sys2Proof.Machine
end

