-- ==== Sys2Proof/Machine/Operands.lean ====
section
/-!
DEFINITION. Operand forms and the notation of 00_scope.md: derived widths (R8), two's complement
(R9), the rounding primitive (R10), the list operations (R11), and the exact integer forms of a bin's
frequency (40_spectral.md R56; 41_quantizer.md, opening).
-/
namespace Sys2Proof.Machine

/-- `s16(v)`: a sample's 16 bits read as two's complement (00_scope.md R9; 30_encoding.md R39). -/
def s16 (v : Sample) : Int := if v.toNat < 2 ^ 15 then v.toNat else (v.toNat : Int) - 2 ^ 16

/-- `NB = floor(N/2)`, the highest bin searched (00_scope.md R8). -/
def numBins (cfg : Config) : Nat := cfg.frameN / 2

/-- `ceil(log2(n))` for `n >= 1`. -/
def ceilLog2 (n : Nat) : Nat := if n ≤ 1 then 0 else Nat.log2 (n - 1) + 1

/-- `KW`, the width of a bin index (00_scope.md R8). -/
def binWidth (cfg : Config) : Nat := max 1 (ceilLog2 (numBins cfg + 1))

/-- `PW`, the width of the packet length counter (00_scope.md R8). -/
def pktWidth (cfg : Config) : Nat := max 1 (ceilLog2 (cfg.pktMax + 1))

/-- `QW`, the width of the output-queue occupancy counter (00_scope.md R8). -/
def outqWidth (cfg : Config) : Nat := max 1 (ceilLog2 (cfg.outqDepth + 1))

/-- `rne(num, den)` for `den > 0`: nearest integer, an exact half to the even one (00_scope.md
R10). -/
def rne (num den : Int) : Int :=
  let q0 := num / den
  let r := num - q0 * den
  if 2 * r < den then q0
  else if den < 2 * r then q0 + 1
  else if q0 % 2 = 0 then q0 else q0 + 1

/-- `evenIdx(xs)`: the elements at indices 0, 2, 4, ... (00_scope.md R11). -/
def evenIdx {α : Type} : List α → List α
  | [] => []
  | [x] => [x]
  | x :: _ :: xs => x :: evenIdx xs

/-- `filterMap(g, xs)` (00_scope.md R11). -/
def keepSome {α β : Type} (g : α → Option β) : List α → List β
  | [] => []
  | x :: xs =>
    match g x with
    | some v => v :: keepSome g xs
    | none => keepSome g xs

/-- `k*R - H*N`: the frequency of bin `k` less `H` hertz, times N, exactly (41_quantizer.md R58, R60,
R61). -/
def scaledOffset (cfg : Config) (k hz : Nat) : Int :=
  (k : Int) * cfg.sampleRateHz - (hz : Int) * cfg.frameN

/-- `abs(k*R - H*N) < TOL_HZ*N`: bin `k` lies strictly within the tolerance of `H` hertz
(41_quantizer.md R60, R61). -/
def withinTol (cfg : Config) (k hz : Nat) : Bool :=
  decide ((scaledOffset cfg k hz).natAbs < tolHz * cfg.frameN)

end Sys2Proof.Machine
end

