-- ==== Sys2Proof/Machine/Flags.lean ====
section
/-!
DEFINITION. The flags and the status word: the error codes and `record` (60_exceptions.md R83, R84),
the status word (10_state.md R17), the handshake class of a frame (30_encoding.md R43), the FRAME event
word (R46), and what the output ports show (10_state.md R15, R16).
-/
namespace Sys2Proof.Machine

/-- The named error codes of 60_exceptions.md R83. -/
inductive ErrCode where
  | none
  | quantReject
  | captureFail
  | pktOverflow
  | outqOverflow
  | correctionFailure
deriving DecidableEq, Repr

/-- The code of an error (60_exceptions.md R83). -/
def errCode : ErrCode → BitVec 3
  | .none => 0
  | .quantReject => 1
  | .captureFail => 2
  | .pktOverflow => 3
  | .outqOverflow => 4
  | .correctionFailure => 5

/-- `record(code)` (60_exceptions.md R84): the sticky bit of the code, and `st.last_err`. -/
def record (c : ErrCode) (st : Core) : Core :=
  { st with
    errCap := st.errCap || decide (c = .captureFail)
    errPktovf := st.errPktovf || decide (c = .pktOverflow)
    errOutqovf := st.errOutqovf || decide (c = .outqOverflow)
    lastErr := errCode c }

/-- The field `st[1:0]` (10_state.md R17). -/
def runBits : Run → BitVec 2
  | .run => 0b00
  | .stopped => 0b01
  | .halted => 0b10

/-- The bit `st[2]` (10_state.md R17). -/
def frBit : Framer → Bool
  | .idle => false
  | .inPkt => true

/-- The status word `st[15:0]` (10_state.md R17). -/
def statusWord (st : Core) : StatusWord :=
  0#6 ++ st.lastErr ++ BitVec.ofBool st.errOutqovf ++ BitVec.ofBool st.errPktovf
    ++ BitVec.ofBool st.errCap ++ BitVec.ofBool st.povf ++ BitVec.ofBool (frBit st.fr)
    ++ runBits st.run

/-- The classification `cls`: bit 0 the start match, bit 1 the end match (30_encoding.md R43). -/
def clsOf (hs he : Bool) : BitVec 2 := BitVec.ofBool he ++ BitVec.ofBool hs

/-- `full` (30_encoding.md R46; 43_framer.md R68). -/
def pktFull (cfg : Config) (st : Core) : Bool :=
  decide (st.fr = .inPkt) && decide (st.pkt.length = cfg.pktMax)

/-- The FRAME event word of a state and a classification (30_encoding.md R46; 43_framer.md R68). -/
def frameWord (cfg : Config) (st : Core) (cls : BitVec 2) : EventWord :=
  frameBits (pktFull cfg st) (frBit st.fr) (cls.getLsbD 0) (cls.getLsbD 1)

/-- The 10 bits `{empty, last, data}` of a beat (30_encoding.md R42). -/
def beatBits : Beat → BitVec 10
  | .byte b last => 0#1 ++ BitVec.ofBool last ++ b
  | .empty => 0b11#2 ++ 0x00#8

/-- The OUT event word of a beat (30_encoding.md R47). -/
def beatWord : Beat → EventWord
  | .byte _ last => outBits last false
  | .empty => outBits true true

/-- What the output port shows (10_state.md R13). -/
structure OutPort where
  oValid : Bool
  /-- `{o_empty, o_last, o_data}` -/
  bits : BitVec 10
deriving DecidableEq, Repr

/-- The output port: the head beat, or any value while `o_valid` = 0 (10_state.md R16; log 5). -/
def State.outPort (s : State) : OutPort :=
  match s.st.outq with
  | [] => { oValid := false, bits := Config.freeOut s.freeCtr }
  | b :: _ => { oValid := true, bits := beatBits b }

/-- What the debug frame port shows (10_state.md R13). `frBin` is below `2^KW`. -/
structure FramePort where
  frValid : Bool
  frBin : Nat
  frCls : BitVec 2
deriving DecidableEq, Repr

/-- The debug frame port: the frame step's report, or any value while `fr_valid` = 0 (10_state.md R15;
log 5). -/
def State.framePort (s : State) : FramePort :=
  match s.frOut with
  | none =>
    { frValid := false, frBin := Config.freeFrBin s.freeCtr % 2 ^ binWidth s.cfg,
      frCls := Config.freeFrCls s.freeCtr }
  | some r => { frValid := true, frBin := r.bin, frCls := r.cls }

end Sys2Proof.Machine
end

