-- ==== Sys2Proof/Machine/Ops.lean ====
section
/-!
DEFINITION. The primitives of 00_scope.md R12 over the three buffers, the entry to a terminal state
(60_exceptions.md R89, the core's counterpart of taking an exception) and the way out of it (R90), and
the observation a step leaves (R93).
-/
namespace Sys2Proof.Machine

/-- `FbufAppend(s)` (00_scope.md R12). -/
def fbufAppend (d : Sample) (st : Core) : Core := { st with fbuf := st.fbuf ++ [d] }

/-- `st.fbuf <- []`. -/
def fbufClear (st : Core) : Core := { st with fbuf := [] }

/-- `PktAppend(k)` (00_scope.md R12). -/
def pktAppend (k : Nat) (st : Core) : Core := { st with pkt := st.pkt ++ [k] }

/-- `OutqPush(beats)`: a whole list of beats in one step (00_scope.md R12). -/
def outqPush (bs : List Beat) (st : Core) : Core := { st with outq := st.outq ++ bs }

/-- `OutqPop()`: removes the head beat (00_scope.md R12). -/
def outqPop (st : Core) : Core := { st with outq := st.outq.tail }

/-- The framer returns to IDLE with no packet (43_framer.md R72 ABORT, R73; 44_control.md R78, R79).
-/
def closePacket (st : Core) : Core := { st with fr := .idle, pkt := [], povf := false }

/-- Entry to a terminal run state: the open packet is discarded, the output queue and the error bits
stay (60_exceptions.md R89; 44_control.md R78). Nothing else is saved. -/
def enterTerminal (r : Run) (st : Core) : Core := { closePacket st with run := r }

/-- The only way out of a terminal state: every field of `st` to its reset value (60_exceptions.md
R90; 44_control.md R77). -/
def leaveTerminal (_ : Core) : Core := Core.reset

/-- The run takes an event word (30_encoding.md R45). -/
def logWord (w : EventWord) (s : State) : State :=
  { s with obs := { s.obs with words := s.obs.words ++ [w] } }

/-- The consumer takes a beat (60_exceptions.md R93). -/
def logBeat (b : Beat) (s : State) : State :=
  { s with obs := { s.obs with beats := s.obs.beats ++ [b] } }

/-- `emit_fr(k, cls)`: appends to the observation, drives the debug frame port, changes no field of
`st` (10_state.md R15). -/
def emitFr (k : Nat) (cls : BitVec 2) (s : State) : State :=
  { s with
    obs := { s.obs with frames := s.obs.frames ++ [{ bin := k, cls := cls }] }
    frOut := some { bin := k, cls := cls } }

/-- Writes the record `st`. -/
def setCore (st : Core) (s : State) : State := { s with st := st }

/-- A function unit executed on its own answers its caller and writes nothing of `st`
(30_encoding.md R47; log 6). -/
def answer (r : UnitResult) (s : State) : State := { s with ret := r }

end Sys2Proof.Machine
end

