-- ==== Sys2Proof/Machine/Assembler.lean ====
section
/-!
DEFINITION. The bitchunk_assembler (42_assembler.md R64), and EXPAND, the sender's chunking, by which
R67 states the round trip and 30_encoding.md R50 the `BYTES` line.
-/
namespace Sys2Proof.Machine

/-- The variables of R64's loop: the bytes emitted, the accumulator, the bits it still needs. -/
structure Packer where
  out : List Byte
  acc : Nat
  need : Nat
deriving DecidableEq, Repr

/-- Before the first chunk (42_assembler.md R64). -/
def packerStart : Packer := { out := [], acc := 0, need := 8 }

/-- One pass of R64's inner loop over a chunk `c` with `rem` bits unread: takes
`min(need, rem)` bits from its most-significant unread end. -/
def packTake (c rem : Nat) (p : Packer) : Packer :=
  let take := min p.need rem
  let bits := (c >>> (rem - take)) &&& (2 ^ take - 1)
  let acc := (p.acc <<< take) ||| bits
  if p.need - take = 0 then { out := p.out ++ [BitVec.ofNat 8 acc], acc := 0, need := 8 }
  else { out := p.out, acc := acc, need := p.need - take }

/-- R64's inner loop, "while rem > 0". Every pass takes at least one bit, so the first argument, an
upper bound on the passes, is at most the chunk width. -/
def packChunk (c : Nat) : Nat → Nat → Packer → Packer
  | 0, _, p => p
  | fuel + 1, rem, p =>
    if rem = 0 then p else packChunk c fuel (rem - min p.need rem) (packTake c rem p)

/-- R64's outer loop, over the chunks in input order. -/
def packChunks (w : Nat) : List Nat → Packer → Packer
  | [], p => p
  | c :: cs, p => packChunks w cs (packChunk c w w p)

/-- ASSEMBLE(W, chunks): a partly filled last byte is not emitted (42_assembler.md R64). -/
def assemble (w : Nat) (chunks : List Nat) : List Byte := (packChunks w chunks packerStart).out

/-- Bit `i` of the bit string of `bytes`, each byte giving bit 7 first (42_assembler.md R67). -/
def streamBit (bytes : List Byte) (i : Nat) : Bool := (bytes.getD (i / 8) 0).getLsbD (7 - i % 8)

/-- The number whose `n` bits, most-significant first, are `f 0`, ..., `f (n-1)`. -/
def bitsToNat (f : Nat → Bool) : Nat → Nat
  | 0 => 0
  | n + 1 => 2 * bitsToNat f n + (f n).toNat

/-- EXPAND(W, bytes) (42_assembler.md R67). -/
def expand (w : Nat) (bytes : List Byte) : List Nat :=
  (List.range (8 * bytes.length / w)).map fun j => bitsToNat (fun t => streamBit bytes (j * w + t)) w

/-- ASSEMBLE on its own (42_assembler.md R64): answers the bytes, writes nothing. -/
def execAssemble (s : State) : Host.Outcome State Fault Refusal :=
  .next (answer (.bytes (assemble s.args.width s.args.chunks)) s)

end Sys2Proof.Machine
end

