-- ==== Sys2Proof/Machine/Quantizer.lean ====
section
/-!
DEFINITION. The frequency_to_symbol_quantizer (41_quantizer.md R58 to R63) and BIN2HZ (40_spectral.md
R56): pure functions of a bin and the parameters, in exact integer arithmetic, and the units that
answer them.
-/
namespace Sys2Proof.Machine

/-- BIN2HZ: `k*R/N`, an exact rational number of hertz (40_spectral.md R56). -/
def bin2hz (cfg : Config) (k : Nat) : Rat := mkRat (k * cfg.sampleRateHz) cfg.frameN

/-- QUANT (41_quantizer.md R58). -/
def quant (cfg : Config) (k : Nat) : Option Nat :=
  let q := rne (scaledOffset cfg k cfg.startHz) ((cfg.stepHz : Int) * cfg.frameN)
  if 0 ≤ q ∧ q < 2 ^ cfg.bits then some q.toNat else none

/-- HS_START (41_quantizer.md R60). -/
def hsStart (cfg : Config) (k : Nat) : Bool := withinTol cfg k cfg.hsStartHz

/-- HS_END (41_quantizer.md R61). -/
def hsEnd (cfg : Config) (k : Nat) : Bool := withinTol cfg k cfg.hsEndHz

/-- CLASSIFY: `{HS_END(k), HS_START(k)}` (41_quantizer.md R62). -/
def classify (cfg : Config) (k : Nat) : BitVec 2 := clsOf (hsStart cfg k) (hsEnd cfg k)

/-- BIN2HZ on its own (40_spectral.md R56): answers the frequency, writes nothing. -/
def execBin2hz (s : State) : Host.Outcome State Fault Refusal :=
  .next (answer (.hz (bin2hz s.cfg s.args.bin)) s)

/-- QUANT on its own (41_quantizer.md R58): answers the symbol or none, writes nothing. -/
def execQuant (s : State) : Host.Outcome State Fault Refusal :=
  .next (answer (.symbol (quant s.cfg s.args.bin)) s)

/-- HS_START on its own (41_quantizer.md R60): answers the predicate, writes nothing. -/
def execHsStart (s : State) : Host.Outcome State Fault Refusal :=
  .next (answer (.flag (hsStart s.cfg s.args.bin)) s)

/-- HS_END on its own (41_quantizer.md R61): answers the predicate, writes nothing. -/
def execHsEnd (s : State) : Host.Outcome State Fault Refusal :=
  .next (answer (.flag (hsEnd s.cfg s.args.bin)) s)

/-- CLASSIFY on its own (41_quantizer.md R62): answers the class, writes nothing. -/
def execClassify (s : State) : Host.Outcome State Fault Refusal :=
  .next (answer (.cls (classify s.cfg s.args.bin)) s)

end Sys2Proof.Machine
end

