-- ==== Sys2Proof/Machine/Framer.lean ====
section
/-!
DEFINITION. The packet_framer_fsm and finalisation (43_framer.md R68 to R76): the five rows of the
framer, EVENIDX, FINALIZE, DISPATCH, and what a FRAME word does when it is taken.
-/
namespace Sys2Proof.Machine

/-- FINALIZE: even indices, quantised, rejects dropped, packed (43_framer.md R75). -/
def finalize (cfg : Config) (pkt : List Nat) : List Byte :=
  assemble cfg.bits (keepSome (quant cfg) (evenIdx pkt))

/-- The bytes of a non-empty stream as beats; only the last has `last` = 1 (43_framer.md R76). -/
def byteBeats : List Byte → List Beat
  | [] => []
  | [b] => [.byte b true]
  | b :: bs => .byte b false :: byteBeats bs

/-- The beats of one byte stream; the empty stream is the one beat EMPTY (43_framer.md R76; 30_encoding.md
R42). -/
def streamBeats (bytes : List Byte) : List Beat :=
  if bytes = [] then [.empty] else byteBeats bytes

/-- DISPATCH: the whole stream, or none of it and OUTQ_OVERFLOW (43_framer.md R76). -/
def dispatch (cfg : Config) (bytes : List Byte) (st : Core) : Core :=
  if st.outq.length + (streamBeats bytes).length ≤ cfg.outqDepth then
    outqPush (streamBeats bytes) st
  else record .outqOverflow st

/-- FR_IDLE_START (43_framer.md R69). -/
def rowIdleStart (st : Core) : Core := { st with fr := .inPkt, pkt := [], povf := false }

/-- FR_IDLE_OTHER (43_framer.md R70): no state change. -/
def rowIdleOther (st : Core) : Core := st

/-- FR_PKT_APPEND (43_framer.md R71). -/
def rowPktAppend (k : Nat) (st : Core) : Core := pktAppend k st

/-- FR_PKT_FULL (43_framer.md R72). -/
def rowPktFull (cfg : Config) (st : Core) : Core :=
  match cfg.ovfPolicy with
  | .hold => if st.povf then st else record .pktOverflow { st with povf := true }
  | .abort => record .pktOverflow { st with pkt := [], fr := .idle }

/-- FR_PKT_END (43_framer.md R73). -/
def rowPktEnd (cfg : Config) (st : Core) : Core :=
  closePacket (if st.povf then st else dispatch cfg (finalize cfg st.pkt) st)

/-- The framer row an event word selects, by the matches and masks of 30_encoding.md R46's table in
the order of 43_framer.md R68. A word that matches none changes nothing; no state produces one. -/
def frameRow (cfg : Config) (ew : EventWord) (k : Nat) (st : Core) : Core :=
  if ew &&& 0xFE#8 = 0x42#8 then rowIdleStart st
  else if ew &&& 0xFE#8 = 0x40#8 then rowIdleOther st
  else if ew &&& 0xF5#8 = 0x45#8 then rowPktEnd cfg st
  else if ew &&& 0xFD#8 = 0x44#8 then rowPktAppend k st
  else if ew &&& 0xFD#8 = 0x4C#8 then rowPktFull cfg st
  else st

/-- A framer row taken under its word: the new record, the word in the run's trace, and `emit_fr`
(43_framer.md R68; 10_state.md R15). -/
def takeRow (ew : EventWord) (k : Nat) (st : Core) (s : State) : State :=
  emitFr k (classify s.cfg k) (logWord ew (setCore st s))

/-- STOP (44_control.md R78). -/
def stopRun (s : State) : State :=
  logWord 0xC0#8 (setCore (enterTerminal .stopped s.st) s)

/-- FRAME_STEP from the peak bin on: the word, its row, `emit_fr`, then STOP if `cancel` = 1
(43_framer.md R68; 60_exceptions.md R88 item 3). -/
def frameStep (k : Nat) (cancel : Bool) (s : State) : State :=
  let ew := frameWord s.cfg s.st (classify s.cfg k)
  let s' := takeRow ew k (frameRow s.cfg ew k s.st) s
  if cancel then stopRun s' else s'

/-- The core produces the FRAME word `ew` for the bin `k` in this state: the core is running, it
stands at a frame boundary, `k` is a bin, and `ew` is the word of R46 (43_framer.md R68; log 7). -/
def frameReady (ew : EventWord) (s : State) : Bool :=
  decide (s.st.run = .run) && decide (s.st.fbuf = []) && decide (s.args.bin ≤ numBins s.cfg)
    && decide (frameWord s.cfg s.st (classify s.cfg s.args.bin) = ew)

/-- A FRAME word executed on its own, with the bin of `args` as its operand: its row and `emit_fr`.
STOP has a word of its own (log 7). -/
def frameEvent (ew : EventWord) (row : Core → Core) (s : State) : Host.Outcome State Fault Refusal :=
  if frameReady ew s then .next (takeRow ew s.args.bin (row s.st) s) else .refused (.notProduced ew)

/-- FR_IDLE_START (43_framer.md R69). -/
def execFrIdleStart (he : Bool) (s : State) : Host.Outcome State Fault Refusal :=
  frameEvent (frameBits false false true he) rowIdleStart s

/-- FR_IDLE_OTHER (43_framer.md R70). -/
def execFrIdleOther (he : Bool) (s : State) : Host.Outcome State Fault Refusal :=
  frameEvent (frameBits false false false he) rowIdleOther s

/-- FR_PKT_END (43_framer.md R73). -/
def execFrPktEnd (full hs : Bool) (s : State) : Host.Outcome State Fault Refusal :=
  frameEvent (frameBits full true hs true) (rowPktEnd s.cfg) s

/-- FR_PKT_APPEND (43_framer.md R71). -/
def execFrPktAppend (hs : Bool) (s : State) : Host.Outcome State Fault Refusal :=
  frameEvent (frameBits false true hs false) (rowPktAppend s.args.bin) s

/-- FR_PKT_FULL (43_framer.md R72). -/
def execFrPktFull (hs : Bool) (s : State) : Host.Outcome State Fault Refusal :=
  frameEvent (frameBits true true hs false) (rowPktFull s.cfg) s

/-- EVENIDX on its own (43_framer.md R74): answers the list, writes nothing. -/
def execEvenidx (s : State) : Host.Outcome State Fault Refusal :=
  .next (answer (.bins (evenIdx s.args.bins)) s)

/-- FINALIZE on its own (43_framer.md R75): answers the bytes, writes nothing. -/
def execFinalize (s : State) : Host.Outcome State Fault Refusal :=
  .next (answer (.bytes (finalize s.cfg s.args.bins)) s)

/-- DISPATCH on its own (43_framer.md R76). -/
def execDispatch (s : State) : Host.Outcome State Fault Refusal :=
  .next (setCore (dispatch s.cfg s.args.bytes s.st) s)

end Sys2Proof.Machine
end

