-- ==== Sys2Proof/Machine/Control.lean ====
section
/-!
DEFINITION. RESET, STOP, CAPFAIL and the output operations (44_control.md R77 to R82).
-/
namespace Sys2Proof.Machine

/-- RESET (44_control.md R77): every field of `st` to its reset value, and `fr_valid` = 0 (10_state.md
R25). The parameters are not written. -/
def execReset (s : State) : Host.Outcome State Fault Refusal :=
  .next (logWord 0x00#8 { setCore (leaveTerminal s.st) s with booted := true, frOut := none })

/-- STOP's conditions: it runs at the end of a frame step, so the core is running and at a frame
boundary, and only when `cancel` = 1 (44_control.md R78; log 7). -/
def stopReady (s : State) : Bool :=
  decide (s.st.run = .run) && decide (s.st.fbuf = []) && s.ports.cancel

/-- STOP (44_control.md R78). -/
def execStop (s : State) : Host.Outcome State Fault Refusal :=
  if stopReady s then .next (stopRun s) else .refused (.notProduced 0xC0#8)

/-- CAPFAIL (44_control.md R79). In STOPPED and HALTED nothing changes and it leaves no word
(log 11). -/
def execCapfail (s : State) : Host.Outcome State Fault Refusal :=
  if s.st.run = .run then
    .next (logWord 0x80#8 (setCore (record .captureFail (enterTerminal .halted (fbufClear s.st))) s))
  else .next s

/-- The consumer takes the head beat `b` (44_control.md R80, R81). -/
def takeBeat (b : Beat) (s : State) : State :=
  logBeat b (logWord (beatWord b) (setCore (outqPop s.st) s))

/-- OUT_BYTE (44_control.md R80): its operand is a head beat `BYTE(b, last)` with this word's `last`.
-/
def execOutByte (last : Bool) (s : State) : Host.Outcome State Fault Refusal :=
  match s.st.outq with
  | .byte b l :: _ =>
    if l = last then .next (takeBeat (.byte b l) s) else .refused (.notProduced (outBits last false))
  | _ => .refused (.notProduced (outBits last false))

/-- OUT_EMPTY (44_control.md R81): its operand is a head beat `EMPTY`. -/
def execOutEmpty (s : State) : Host.Outcome State Fault Refusal :=
  match s.st.outq with
  | .empty :: _ => .next (takeBeat .empty s)
  | _ => .refused (.notProduced (outBits true true))

end Sys2Proof.Machine
end

