-- ==== Sys2Proof/Machine/Trig.lean ====
section
/-!
DEFINITION. Fixed-point cosines of the angles `2*pi*j/N` with a stated error bound, in integer
arithmetic only. 40_spectral.md R52 compares exact real sums of such cosines; Machine/Peak.lean
decides those comparisons with the values of this file, and Laws/Trig.lean proves that each value is
within `cosErr p` of `2^p * cos(2*pi*j/N)` (log 4).
-/
namespace Sys2Proof.Machine

/-- `2^p * arctan(1/q)`, by the first terms of the alternating series, each rounded down. -/
def atanInvFix (p q : Nat) : Nat → Int
  | 0 => 0
  | k + 1 =>
    let t : Int := (2 ^ p / ((2 * k + 1) * q ^ (2 * k + 1)) : Nat)
    atanInvFix p q k + (if k % 2 = 0 then t else -t)

/-- `2^p * pi`, by Machin's formula. -/
def piFix (p : Nat) : Int :=
  4 * (4 * atanInvFix p 5 (p / 4 + 1) - atanInvFix p 239 (p / 4 + 1))

/-- The Taylor sum of the cosine: `y` is the square of the angle, `t` the term of index `k`, `acc` the
terms before it, the first argument the number of terms still to add. -/
def cosLoop (p : Nat) (y : Int) : Nat → Nat → Int → Int → Int
  | 0, _, _, acc => acc
  | f + 1, k, t, acc =>
    cosLoop p y f (k + 1) (-(t * y / 2 ^ p / ((2 * k + 1) * (2 * k + 2) : Nat))) (acc + t)

/-- `2^p * cos(a)` for an angle `a` of at most 1, given as `x = 2^p * a`. -/
def cosSmall (p : Nat) (x : Int) : Int := cosLoop p (x * x / 2 ^ p) (p / 2 + 1) 0 (2 ^ p) 0

/-- From `2^p * cos(a)` to `2^p * cos(2*a)`. -/
def cosDouble (p : Nat) (c : Int) : Int := 2 * c * c / 2 ^ p - 2 ^ p

/-- `2^p * cos(2*pi*j/N)` for `j < N`: the angle is an eighth of it, doubled three times. -/
def cosFix (p N j : Nat) : Int :=
  cosDouble p (cosDouble p (cosDouble p (cosSmall p (piFix p * j / (4 * N : Nat)))))

/-- The bound on the error of `cosFix p`, for `p` of at least 64. -/
def cosErr (p : Nat) : Nat := 2000 * (p + 2) ^ 2

end Sys2Proof.Machine
end

