-- ==== Sys2Proof/Machine/Peak.lean ====
section
/-!
DEFINITION. The peak search (40_spectral.md R52, R54). `P[k] = C[k]^2 + S[k]^2` is, exactly,
`sum_d a_d * cos(2*pi*k*d/N)` with `a` the integer circular autocorrelation of the frame, so a
comparison of two multiples of such values is the sign of an integer combination of cosines. Such a
combination, when it is not 0, is bounded away from 0, so its sign can be read from cosines computed
to a precision known beforehand. Laws/Peak.lean proves the comparison equal to the real one of R52
(log 4).
-/
namespace Sys2Proof.Machine

/-- `f 0 + ... + f (n-1)`. -/
def sumTo : Nat → (Nat → Int) → Int
  | 0, _ => 0
  | n + 1, f => sumTo n f + f n

/-- The n-th sample of a frame as an integer (30_encoding.md R39). -/
def sampleAt (x : List Sample) (n : Nat) : Int := s16 (x.getD n 0)

/-- The circular autocorrelation of a frame at distance `d`. -/
def autocorr (N : Nat) (x : List Sample) (d : Nat) : Int :=
  sumTo N fun n => sampleAt x n * sampleAt x ((n + d) % N)

/-- The autocorrelation at the distances 0 to N-1. -/
def autocorrList (N : Nat) (x : List Sample) : List Int := (List.range N).map (autocorr N x)

/-- The sum of the magnitudes of the autocorrelation. -/
def autocorrMass (N : Nat) (a : List Int) : Nat := (sumTo N fun d => (a.getD d 0).natAbs).toNat

/-- `2^p * P[k]`, from the autocorrelation `a` and cosines `c` scaled by `2^p`. -/
def powFix (N : Nat) (c : Nat → Int) (a : List Int) (k : Nat) : Int :=
  sumTo N fun d => a.getD d 0 * c (d * k % N)

/-- The precision of the first comparison. -/
def lowPrec : Nat := 128

/-- A precision at which the sign of an integer combination of the N cosines with coefficients of
total magnitude `m` can be read off (Laws/Peak.lean). -/
def fullPrec (N m : Nat) : Nat := 2 * (N + 2) * (Nat.log2 (m + 1) + 2) + 64

/-- The cosines at the first precision. -/
def lowCosines (N : Nat) : List Int := (List.range N).map (cosFix lowPrec N)

/-- Whether `u * P[k] > v * P[j]`, exactly: by the cosines `lo` of the first precision where these
settle it, else at the full precision. -/
def powGt (N : Nat) (lo a : List Int) (u k v j : Nat) : Bool :=
  let m := (u + v) * autocorrMass N a
  let t := u * powFix N (fun i => lo.getD i 0) a k - v * powFix N (fun i => lo.getD i 0) a j
  let e : Int := (m * cosErr lowPrec : Nat)
  if e < t then true
  else if t < -e then false
  else
    let p := fullPrec N m
    decide (((m * cosErr p : Nat) : Int) < u * powFix N (cosFix p N) a k - v * powFix N (cosFix p N) a j)

/-- Scans the bins upward, keeping the first of the greatest: `f` bins remain, `k` is the next, `best`
the best so far. -/
def scanPeak (gt : Nat → Nat → Bool) : Nat → Nat → Nat → Nat
  | 0, _, best => best
  | f + 1, k, best => scanPeak gt f (k + 1) (if gt k best then k else best)

/-- PEAK in exact arithmetic: the lowest bin of 0 to NB with the greatest `P` (40_spectral.md R52). -/
def exactPeak (N : Nat) (x : List Sample) : Nat :=
  let a := autocorrList N x
  let lo := lowCosines N
  scanPeak (fun k j => powGt N lo a 1 k 1 j) (N / 2) 1 0

/-- Whether bin `k` beats every other bin of 0 to NB by the margin: `P[k] > (1 + eps) * P[j]`
(40_spectral.md R54 (c)). -/
def clearPeak (N : Nat) (eps : Rat) (x : List Sample) (k : Nat) : Bool :=
  let a := autocorrList N x
  let lo := lowCosines N
  (List.range (N / 2 + 1)).all fun j =>
    decide (j = k) || powGt N lo a eps.den k (eps.den + eps.num.toNat) j

/-- Every sample of the frame is 0. -/
def silent (N : Nat) (x : List Sample) : Bool := (List.range N).all fun n => decide (sampleAt x n = 0)

/-- The peak function of the core, one that conforms to 40_spectral.md R54: silence answers 0 (b);
with `PEAK_EPS` = 0 it is the exact search (d); a clear peak is answered (c); any other frame answers
a bin of 0 to NB that is left free (log 3). -/
def peakBin (cfg : Config) (x : List Sample) : Nat :=
  if silent cfg.frameN x then 0
  else
    let k := exactPeak cfg.frameN x
    if cfg.peakEps.num = 0 then k
    else if clearPeak cfg.frameN cfg.peakEps x k then k
    else Config.peakChoice cfg x % (numBins cfg + 1)

end Sys2Proof.Machine
end

