-- ==== Sys2Proof/Machine/Spectral.lean ====
section
/-!
DEFINITION. Frame acquisition and the spectral_peak_detector's operations (40_spectral.md R51, R52).
-/
namespace Sys2Proof.Machine

/-- SAMPLE(s), with the frame step that a completed frame causes in the same atomic step
(40_spectral.md R51; 43_framer.md R68). A sample that is not accepted leaves no word (44_control.md
R82; log 11). -/
def acceptSample (d : Sample) (cancel : Bool) (s : State) : State :=
  if s.st.run ≠ .run then s
  else if s.st.fbuf.length + 1 < s.cfg.frameN then
    logWord 0x20#8 (setCore (fbufAppend d s.st) s)
  else
    frameStep (peakBin s.cfg (s.st.fbuf ++ [d])) cancel (logWord 0x20#8 (setCore (fbufClear s.st) s))

/-- SAMPLE: the sample on `s_data`; a frame step it causes reads `cancel` (40_spectral.md R51;
44_control.md R78). -/
def execSample (s : State) : Host.Outcome State Fault Refusal :=
  .next (acceptSample s.ports.sData s.ports.cancel s)

/-- PEAK on its own (40_spectral.md R52, R54): answers the bin, writes nothing. Its operand is a frame
of N samples. -/
def execPeak (s : State) : Host.Outcome State Fault Refusal :=
  if s.args.frame.length = s.cfg.frameN then .next (answer (.bin (peakBin s.cfg s.args.frame)) s)
  else .refused .notAFrame

end Sys2Proof.Machine
end

