-- ==== Sys2Proof/Machine/Cycle.lean ====
section
/-!
DEFINITION. One clock edge: which events it brings and in which order (10_state.md R14; 60_exceptions.md
R88), and how an event word is put where the next step takes it (log 9).
-/
namespace Sys2Proof.Machine

/-- The input event of a clock edge without `rst`: a capture failure, or else a sample (10_state.md
R14; 60_exceptions.md R88 items 2, 3). -/
def inputWords (p : Ports) : List EventWord :=
  if p.capErr then [0x80#8] else if p.sValid then [0x20#8] else []

/-- The output event of a clock edge without `rst`: the beat at the head of the queue as it stood at
the start of the cycle, if the consumer is ready (10_state.md R16; 60_exceptions.md R88 item 4). -/
def outputWords (p : Ports) (outq : List Beat) : List EventWord :=
  if p.oReady then
    match outq with
    | [] => []
    | b :: _ => [beatWord b]
  else []

/-- The event words of one clock edge, in order (60_exceptions.md R88). -/
def cycleWords (p : Ports) (outq : List Beat) : List EventWord :=
  if p.rst then [0x00#8] else inputWords p ++ outputWords p outq

/-- A clock edge begins: the ports take their values, the `fr_valid` pulse of the edge before is over
(10_state.md R15), and the edge's events wait to be taken. -/
def startCycle (p : Ports) (s : State) : State :=
  { s with
    ports := p
    frOut := none
    pending := cycleWords p s.st.outq
    freeCtr := s.freeCtr + 1 }

/-- The next clock edge the environment drives; with none left, an edge at which no input is
asserted. -/
def nextCycle (s : State) : State :=
  match s.inputs with
  | [] => startCycle Ports.idle s
  | p :: ps => startCycle p { s with inputs := ps }

/-- The first step of a run must be RESET (70_reset_and_hazards.md R96). -/
def mayTake (i : Instr) (s : State) : Bool := s.booted || decide (i = .reset)

/-- The lowest bin from `k` on, among `f` bins, with the given handshake predicates. -/
def findBin (cfg : Config) (hs he : Bool) : Nat → Nat → Option Nat
  | 0, _ => none
  | f + 1, k =>
    if hsStart cfg k = hs ∧ hsEnd cfg k = he then some k else findBin cfg hs he f (k + 1)

/-- What a FRAME word takes: a running core at a frame boundary, a bin of the word's class, and the
framer state and packet its fields say (30_encoding.md R46). -/
def arrangeFrame (full fr hs he : Bool) (s : State) : State :=
  if frameReady (frameBits full fr hs he) s then s
  else
    let k := (findBin s.cfg hs he (numBins s.cfg + 1) 0).getD s.args.bin
    let pkt :=
      if full then
        if s.st.pkt.length = s.cfg.pktMax then s.st.pkt else List.replicate s.cfg.pktMax k
      else if fr && decide (s.st.pkt.length < s.cfg.pktMax) then s.st.pkt else []
    { s with
      args := { s.args with bin := k }
      st :=
        { s.st with
          run := .run
          fbuf := []
          fr := if fr then .inPkt else .idle
          pkt := pkt
          povf := full && s.st.povf } }

/-- What the event of an operation takes, besides its word (log 9): nothing is changed where the state
already has it. -/
def arrange (i : Instr) (s : State) : State :=
  match i with
  | .frIdleStart he => arrangeFrame false false true he s
  | .frIdleOther he => arrangeFrame false false false he s
  | .frPktEnd full hs => arrangeFrame full true hs true s
  | .frPktAppend hs => arrangeFrame false true hs false s
  | .frPktFull hs => arrangeFrame true true hs false s
  | .outByte last =>
    match s.st.outq with
    | .byte b l :: q =>
      if l = last then s else { s with st := { s.st with outq := .byte b last :: .byte b true :: q } }
    | q => { s with st := { s.st with outq := .byte 0 last :: .byte 0 true :: q } }
  | .outEmpty =>
    match s.st.outq with
    | .empty :: _ => s
    | q => { s with st := { s.st with outq := .empty :: q } }
  | .stop =>
    if stopReady s then s
    else
      { s with
        st := { s.st with run := .run, fbuf := [] }
        ports := { s.ports with cancel := true } }
  | .peak =>
    if s.args.frame.length = s.cfg.frameN then s
    else { s with args := { s.args with frame := List.replicate s.cfg.frameN 0 } }
  | .reset | .sample | .capfail | .bin2hz | .quant | .hsStart | .hsEnd | .classify | .evenidx
  | .assemble | .finalize | .dispatch => s

/-- An event word placed where the next step takes it, with what its event takes. -/
def placeWord (ew : EventWord) (s : State) : State :=
  let s' :=
    match decode ew with
    | .ok i => arrange i s
    | .error _ => s
  { s' with pending := ew :: s'.pending }

end Sys2Proof.Machine
end

