-- ==== Sys2Proof/Machine/Dispatch.lean ====
section
/-! DEFINITION. The meaning of each operation of spec/opcode_table.json, one arm per constructor. -/
namespace Sys2Proof.Machine

def exec (i : Instr) (s : State) : Host.Outcome State Fault Refusal :=
  match i with
  | .reset => Sys2Proof.Machine.execReset s
  | .sample => Sys2Proof.Machine.execSample s
  | .frIdleStart he => Sys2Proof.Machine.execFrIdleStart he s
  | .frIdleOther he => Sys2Proof.Machine.execFrIdleOther he s
  | .frPktEnd full hs => Sys2Proof.Machine.execFrPktEnd full hs s
  | .frPktAppend hs => Sys2Proof.Machine.execFrPktAppend hs s
  | .frPktFull hs => Sys2Proof.Machine.execFrPktFull hs s
  | .outByte last => Sys2Proof.Machine.execOutByte last s
  | .outEmpty => Sys2Proof.Machine.execOutEmpty s
  | .capfail => Sys2Proof.Machine.execCapfail s
  | .peak => Sys2Proof.Machine.execPeak s
  | .bin2hz => Sys2Proof.Machine.execBin2hz s
  | .quant => Sys2Proof.Machine.execQuant s
  | .hsStart => Sys2Proof.Machine.execHsStart s
  | .hsEnd => Sys2Proof.Machine.execHsEnd s
  | .classify => Sys2Proof.Machine.execClassify s
  | .evenidx => Sys2Proof.Machine.execEvenidx s
  | .assemble => Sys2Proof.Machine.execAssemble s
  | .finalize => Sys2Proof.Machine.execFinalize s
  | .dispatch => Sys2Proof.Machine.execDispatch s
  | .stop => Sys2Proof.Machine.execStop s

end Sys2Proof.Machine
end

