-- ==== Sys2Proof/Machine/Step.lean ====
section
/-!
DEFINITION. One step of the machine: it takes the next event word of the present clock edge, or, when
the edge has none left, begins the next clock edge (30_encoding.md R45; 60_exceptions.md R88; log 9).
-/
namespace Sys2Proof.Machine

/-- One step. A reserved word is refused (30_encoding.md R48); before the first RESET every other
operation is refused (70_reset_and_hazards.md R96). -/
def step (s : State) : Host.Outcome State Fault Refusal :=
  match s.pending with
  | [] => .next (nextCycle s)
  | w :: ws =>
    match decode w with
    | .error why => .refused (.reservedWord w why)
    | .ok i => if mayTake i s then exec i { s with pending := ws } else .refused (.beforeReset w)

/-- The event word `w` stored where `step` takes its next one, with what its event takes (log 9). The
core fetches nothing (10_state.md R21; 20_memory.md R38): an event happens because its conditions
hold. -/
def State.withFetchWord (s : State) (nbits w : Nat) : State :=
  placeWord (BitVec.ofNat 8 (w % 2 ^ nbits)) s

end Sys2Proof.Machine
end

