-- ==== Sys2Proof/Machine/Tone.lean ====
section
/-!
DEFINITION. Tone programs (30_encoding.md R50): the lines, their expansion to steps of the core under a
configuration, the programs that must be refused (93 I16), and what each step does. `FRAME k` stands
for a frame whose peak bin is `k`, so these steps enter the frame step at the bin (log 18).
-/
namespace Sys2Proof.Machine

/-- The lines of a tone program (30_encoding.md R50). -/
inductive ToneLine where
  | frame (k : Nat)
  | tone (f : Nat)
  | sym (s : Nat)
  | hs
  | he
  | sil
  | samples (xs : List Sample)
  | cancel
  | capfail
  | reset
  | drain (n : Nat)
  | packet (syms : List Nat)
  | bytes (bs : List Byte)
deriving DecidableEq, Repr

/-- What a tone program does to the core. `cancel` raises the level for the next frame step. -/
inductive ToneStep where
  | frame (k : Nat)
  | samples (xs : List Sample)
  | cancel
  | capfail
  | reset
  | drain (n : Nat)
deriving DecidableEq, Repr

/-- `TONE f`: the bin with `k*R = f*N`, if it exists and is at most NB (30_encoding.md R50). -/
def toneBin (cfg : Config) (f : Nat) : Option Nat :=
  let k := f * cfg.frameN / cfg.sampleRateHz
  if k * cfg.sampleRateHz = f * cfg.frameN ∧ k ≤ numBins cfg then some k else none

/-- The frequency of a symbol's data tone, `START_HZ + s*STEP_HZ` (30_encoding.md R44, R50). -/
def symHz (cfg : Config) (s : Nat) : Nat := cfg.startHz + s * cfg.stepHz

/-- `TONE f` as steps. -/
def toneSteps (cfg : Config) (f : Nat) : Option (List ToneStep) :=
  (toneBin cfg f).map fun k => [.frame k]

/-- `SYM s`: `TONE START_HZ + s*STEP_HZ`, legal whenever that tone is (30_encoding.md R50). -/
def symSteps (cfg : Config) (s : Nat) : Option (List ToneStep) := toneSteps cfg (symHz cfg s)

/-- The data tones of `PACKET`, each doubled (30_encoding.md R50). -/
def doubledSteps (cfg : Config) : List Nat → Option (List ToneStep)
  | [] => some []
  | s :: ss => do
    let one ← symSteps cfg s
    let more ← doubledSteps cfg ss
    return one ++ one ++ more

/-- `PACKET s0, ..., s(m-1)` (30_encoding.md R50). -/
def packetSteps (cfg : Config) (syms : List Nat) : Option (List ToneStep) := do
  let first ← toneSteps cfg cfg.hsStartHz
  let data ← doubledSteps cfg syms
  let last ← toneSteps cfg cfg.hsEndHz
  return first ++ data ++ last

/-- The steps of a line, or none where the line is not legal (30_encoding.md R50). DEDUCED (log 19):
`FRAME k` needs a bin, so `k` of at most NB (R40). -/
def lineSteps (cfg : Config) : ToneLine → Option (List ToneStep)
  | .frame k => if k ≤ numBins cfg then some [.frame k] else none
  | .tone f => toneSteps cfg f
  | .sym s => symSteps cfg s
  | .hs => toneSteps cfg cfg.hsStartHz
  | .he => toneSteps cfg cfg.hsEndHz
  | .sil => some [.frame 0]
  | .samples xs => if xs.length = cfg.frameN then some [.samples xs] else none
  | .cancel => some [.cancel]
  | .capfail => some [.capfail]
  | .reset => some [.reset]
  | .drain n => some [.drain n]
  | .packet syms => packetSteps cfg syms
  | .bytes bs =>
    if 8 * bs.length % cfg.bits = 0 then packetSteps cfg (expand cfg.bits bs) else none

/-- The steps of the lines after the first. -/
def linesSteps (cfg : Config) : List ToneLine → Option (List ToneStep)
  | [] => some []
  | l :: ls => do
    let one ← lineSteps cfg l
    let more ← linesSteps cfg ls
    return one ++ more

/-- A program's steps; lines before the first `RESET` are illegal (30_encoding.md R50). -/
def programSteps (cfg : Config) : List ToneLine → Option (List ToneStep)
  | [] => some []
  | .reset :: ls => linesSteps cfg (.reset :: ls)
  | _ => none

/-- The samples of one frame, the `cancel` level read at the last (44_control.md R78). -/
def acceptSamples (cancel : Bool) : List Sample → State → State
  | [], s => s
  | d :: ds, s => acceptSamples cancel ds (acceptSample d cancel s)

/-- The consumer takes up to `n` beats: `o_ready` = 1 while `o_valid` = 1 (30_encoding.md R50). -/
def drain : Nat → State → State
  | 0, s => s
  | n + 1, s =>
    match s.st.outq with
    | [] => s
    | b :: _ => drain n (takeBeat b s)

/-- A step of a tone program on the core; `cancel` is the level for the next frame step. A frame in a
terminal state is ignored (44_control.md R82). -/
def toneStep (t : ToneStep) (cancel : Bool) (s : State) : Bool × State :=
  match t with
  | .frame k => if s.st.run = .run then (false, frameStep k cancel s) else (cancel, s)
  | .samples xs => if s.st.run = .run then (false, acceptSamples cancel xs s) else (cancel, s)
  | .cancel => (true, s)
  | .capfail =>
    match execCapfail s with
    | .next s' => (cancel, s')
    | _ => (cancel, s)
  | .reset =>
    match execReset s with
    | .next s' => (cancel, s')
    | _ => (cancel, s)
  | .drain n => (cancel, drain n s)

/-- A tone program on the core. -/
def runTones : List ToneStep → Bool → State → State
  | [], _, s => s
  | t :: ts, cancel, s =>
    let r := toneStep t cancel s
    runTones ts r.1 r.2

end Sys2Proof.Machine
end

