-- ==== Sys2Proof/Safety.lean ====
section
/-!
DEFINITION. The terms the claims use: the real-valued discrete Fourier transform of 40_spectral.md R52
and the conformance of R54, the invariants of 10_state.md R18 and R19, and the configuration
requirements of 70_reset_and_hazards.md R97, which the core does not check.
-/
namespace Sys2Proof.Machine

/-- `C[k]` of 40_spectral.md R52. -/
noncomputable def dftCos (N : ℕ) (x : List Sample) (k : ℕ) : ℝ :=
  ∑ n ∈ Finset.range N, (sampleAt x n : ℝ) * Real.cos (2 * Real.pi * k * n / N)

/-- `S[k]` of 40_spectral.md R52. -/
noncomputable def dftSin (N : ℕ) (x : List Sample) (k : ℕ) : ℝ :=
  ∑ n ∈ Finset.range N, (sampleAt x n : ℝ) * Real.sin (2 * Real.pi * k * n / N)

/-- `P[k] = C[k]^2 + S[k]^2` of 40_spectral.md R52. -/
noncomputable def dftPower (N : ℕ) (x : List Sample) (k : ℕ) : ℝ :=
  dftCos N x k ^ 2 + dftSin N x k ^ 2

/-- The bins of greatest power among the first `n` bins. -/
def greatestBins (n N : ℕ) (x : List Sample) : Set ℕ :=
  {k | k < n ∧ ∀ j < n, dftPower N x j ≤ dftPower N x k}

/-- The signed frequency index of bin `i` among N: `i` up to NB, `i - N` above (40_spectral.md R53). -/
def signedBin (N i : ℕ) : ℤ := if i ≤ N / 2 then i else (i : ℤ) - N

/-- A peak function conforms to 40_spectral.md R54 under a configuration: (a) to (d) for every frame of
N samples. -/
structure ConformingPeak (cfg : Config) (peakFn : List Sample → ℕ) : Prop where
  inRange : ∀ x : List Sample, x.length = cfg.frameN → peakFn x ≤ numBins cfg
  silence : ∀ x : List Sample, x.length = cfg.frameN → (∀ v ∈ x, v = 0#16) → peakFn x = 0
  clear : ∀ (x : List Sample) (k : ℕ), x.length = cfg.frameN → k ≤ numBins cfg →
    (∀ j ≤ numBins cfg, j ≠ k →
      (1 + (cfg.peakEps : ℝ)) * dftPower cfg.frameN x j < dftPower cfg.frameN x k) → peakFn x = k
  exact : cfg.peakEps = 0 → ∀ x : List Sample, x.length = cfg.frameN →
    IsLeast (greatestBins (numBins cfg + 1) cfg.frameN x) (peakFn x)

/-- The beats of a byte stream, read off the table of 30_encoding.md R42: every byte but the last with
`last` = 0, the last with `last` = 1, and `EMPTY` for no byte at all. -/
def beatsOfStream (bytes : List Byte) : List Beat :=
  match bytes.getLast? with
  | none => [.empty]
  | some b => bytes.dropLast.map (fun c => .byte c false) ++ [.byte b true]

/-- The record after a byte stream is handed over, as 43_framer.md R76 and 60_exceptions.md R84 put
it. -/
def streamHandedOver (cfg : Config) (bytes : List Byte) (st : Core) : Core :=
  if st.outq.length + (beatsOfStream bytes).length ≤ cfg.outqDepth then
    { st with outq := st.outq ++ beatsOfStream bytes }
  else { st with errOutqovf := true, lastErr := 4 }

/-- The record after a frame finds the packet buffer full, as 43_framer.md R72 and 60_exceptions.md R84
put it. -/
def packetOverflowed (cfg : Config) (st : Core) : Core :=
  match cfg.ovfPolicy, st.povf with
  | .hold, false => { st with povf := true, errPktovf := true, lastErr := 3 }
  | .hold, true => st
  | .abort, _ => { st with pkt := [], fr := .idle, errPktovf := true, lastErr := 3 }

/-- The record after the end handshake, as 43_framer.md R73 puts it. -/
def packetEnded (cfg : Config) (st : Core) : Core :=
  let handed := if st.povf then st else streamHandedOver cfg (finalize cfg st.pkt) st
  { handed with fr := .idle, pkt := [], povf := false }

/-- The framer's transition for a frame whose peak bin is `k`: the table of 30_encoding.md R44 with the
rows of 43_framer.md R69 to R73, written without event words. -/
def framerTable (cfg : Config) (k : ℕ) (st : Core) : Core :=
  match st.fr with
  | .idle => if hsStart cfg k then { st with fr := .inPkt, pkt := [], povf := false } else st
  | .inPkt =>
    if hsEnd cfg k then packetEnded cfg st
    else if st.pkt.length = cfg.pktMax then packetOverflowed cfg st
    else { st with pkt := st.pkt ++ [k] }

/-- A frame of bin `k` finds the packet buffer full: the condition of FR_PKT_FULL (30_encoding.md R46;
43_framer.md R72). -/
def Core.packetFullAt (cfg : Config) (st : Core) (k : ℕ) : Prop :=
  st.fr = .inPkt ∧ hsEnd cfg k = false ∧ st.pkt.length = cfg.pktMax

/-- A frame of bin `k` ends the packet: the condition of FR_PKT_END (30_encoding.md R46; 43_framer.md
R73). -/
def Core.packetEndsAt (cfg : Config) (st : Core) (k : ℕ) : Prop := st.fr = .inPkt ∧ hsEnd cfg k = true

/-- The queue has no room for the beats of a byte stream (43_framer.md R76). -/
def Core.lacksRoom (cfg : Config) (st : Core) (bytes : List Byte) : Prop :=
  cfg.outqDepth < st.outq.length + (beatsOfStream bytes).length

/-- The sample on `s_data` completes a frame: the core runs and holds all but the last sample
(40_spectral.md R51). -/
def State.completesFrame (s : State) : Prop := s.st.run = .run ∧ s.cfg.frameN ≤ s.st.fbuf.length + 1

/-- The peak bin of the frame that the sample on `s_data` completes (40_spectral.md R51; 43_framer.md
R68). -/
def State.completedBin (s : State) : ℕ := peakBin s.cfg (s.st.fbuf ++ [s.ports.sData])

/-- The event word of a frame step (30_encoding.md R46), from the framer state and the handshake
predicates. -/
def frameStepWord (cfg : Config) (k : ℕ) (st : Core) : EventWord :=
  frameBits (decide (st.fr = .inPkt ∧ st.pkt.length = cfg.pktMax)) (decide (st.fr = .inPkt))
    (hsStart cfg k) (hsEnd cfg k)

/-- What a FRAME word for the bin `k` leaves: the record `st'`, its word in the trace, and the frame's
report on the debug port and in the observation (10_state.md R15; 43_framer.md R68); nothing else
moves. -/
def afterFrameWord (s : State) (ew : EventWord) (k : ℕ) (st' : Core) : State :=
  { s with
    st := st'
    frOut := some { bin := k, cls := classify s.cfg k }
    obs :=
      { s.obs with
        words := s.obs.words ++ [ew]
        frames := s.obs.frames ++ [{ bin := k, cls := classify s.cfg k }] } }

/-- A FRAME word's bin can be taken: the core runs, stands at a frame boundary, and the operand is a
bin (43_framer.md R68; 30_encoding.md R40). -/
def State.atFrame (s : State) : Prop :=
  s.st.run = .run ∧ s.st.fbuf = [] ∧ s.args.bin ≤ numBins s.cfg

/-- The operations of the FRAME class (30_encoding.md R46). -/
def isFrameRow : Instr → Bool
  | .frIdleStart _ | .frIdleOther _ | .frPktEnd _ _ | .frPktAppend _ | .frPktFull _ => true
  | _ => false

/-- A queue is a concatenation of byte streams, each `[EMPTY]` or bytes of which exactly the last has
`last` = 1 (10_state.md R19 item 4). -/
def wholeStreams : List Beat → Bool
  | [] => true
  | .empty :: q => wholeStreams q
  | .byte _ true :: q => wholeStreams q
  | .byte _ false :: .byte b l :: q => wholeStreams (.byte b l :: q)
  | .byte _ false :: _ => false

/-- The invariants of the record `st`: the bounds of 10_state.md R18 and the items of R19. -/
structure Core.Inv (cfg : Config) (st : Core) : Prop where
  fbuf_lt : st.fbuf.length < cfg.frameN
  pkt_le : st.pkt.length ≤ cfg.pktMax
  pkt_bins : ∀ k ∈ st.pkt, k ≤ numBins cfg
  outq_le : st.outq.length ≤ cfg.outqDepth
  /-- R19 item 1 -/
  idle : st.fr = .idle → st.pkt = [] ∧ st.povf = false
  /-- R19 item 2 -/
  terminal : st.run ≠ .run → st.fbuf = [] ∧ st.pkt = [] ∧ st.fr = .idle ∧ st.povf = false
  /-- R19 item 3 -/
  overflowed : st.povf = true →
    cfg.ovfPolicy = .hold ∧ st.fr = .inPkt ∧ st.pkt.length = cfg.pktMax
  /-- R19 item 4 -/
  streams : wholeStreams st.outq = true
  /-- R19 item 5 -/
  lastErr : st.lastErr = 0 ∨ st.lastErr = 2 ∨ st.lastErr = 3 ∨ st.lastErr = 4

/-- The frames a run emitted name bins the search can answer (40_spectral.md R52; 30_encoding.md R40).
-/
structure State.Inv (s : State) : Prop where
  core : s.st.Inv s.cfg
  frames : ∀ r ∈ s.obs.frames, r.bin ≤ numBins s.cfg ∧ r.cls = classify s.cfg r.bin
  frOut : ∀ r, s.frOut = some r → r.bin ≤ numBins s.cfg ∧ r.cls = classify s.cfg r.bin

end Sys2Proof.Machine

namespace Sys2Proof

open Machine

/-- 70_reset_and_hazards.md R97 item 1: silence is rejected. -/
def Config.silenceRejected (cfg : Config) : Prop := cfg.stepHz < 2 * cfg.startHz

/-- R97 item 2: no bin is both data and a handshake. -/
def Config.tonesApart (cfg : Config) : Prop :=
  ∀ k ≤ numBins cfg, quant cfg k ≠ none → hsStart cfg k = false ∧ hsEnd cfg k = false

/-- R97 item 2a for one handshake tone `H`, in integers. -/
def Config.handshakeOutside (cfg : Config) (h : ℕ) : Prop :=
  2 * ((h : ℤ) + 20) ≤ 2 * cfg.startHz - cfg.stepHz ∨
    2 * (cfg.startHz : ℤ) + (2 ^ (cfg.bits + 1) - 1) * cfg.stepHz ≤ 2 * ((h : ℤ) - 20)

/-- R97 item 3: the two handshake tones differ by at least 40 Hz. -/
def Config.handshakesApart (cfg : Config) : Prop :=
  2 * tolHz ≤ ((cfg.hsStartHz : ℤ) - cfg.hsEndHz).natAbs

/-- R97 item 4: every tone is at most the highest bin frequency, `NB*R/N`. -/
def Config.tonesInBand (cfg : Config) : Prop :=
  ∀ f ∈ [cfg.hsStartHz, cfg.hsEndHz, cfg.startHz + (2 ^ cfg.bits - 1) * cfg.stepHz],
    f * cfg.frameN ≤ numBins cfg * cfg.sampleRateHz

/-- R97 item 5: every symbol and both handshakes can be received. -/
def Config.tonesReachable (cfg : Config) : Prop :=
  (∀ s < 2 ^ cfg.bits, ∃ k ≤ numBins cfg, quant cfg k = some s)
    ∧ (∃ k ≤ numBins cfg, hsStart cfg k = true) ∧ ∃ k ≤ numBins cfg, hsEnd cfg k = true

/-- The most beats one packet's byte stream takes (70_reset_and_hazards.md R97 item 6, R103 `BMAX`). -/
def Config.maxStreamBeats (cfg : Config) : ℕ := max 1 ((cfg.pktMax + 1) / 2 * cfg.bits / 8)

/-- R97 item 6: every byte stream fits in an empty output queue. -/
def Config.queueFits (cfg : Config) : Prop := cfg.maxStreamBeats ≤ cfg.outqDepth

/-- R97 item 7: the protocol constants equal the sender's. -/
def Config.matchesSender (cfg sender : Config) : Prop :=
  cfg.startHz = sender.startHz ∧ cfg.stepHz = sender.stepHz ∧ cfg.bits = sender.bits
    ∧ cfg.hsStartHz = sender.hsStartHz ∧ cfg.hsEndHz = sender.hsEndHz
    ∧ cfg.frameN = sender.frameN ∧ cfg.sampleRateHz = sender.sampleRateHz

/-- R97 item 8, for a payload of `n` bytes: the trailing-bit rule drops nothing. -/
def Config.payloadWhole (cfg : Config) (n : ℕ) : Prop := 8 * n % cfg.bits = 0

end Sys2Proof
end

