-- ==== Sys2Proof/Certificates/Slice0/Obligations.lean ====
section
/-!
DEFINITION. The statements for the provers, each a proposition about the model, with the rule of spec/
it formalises. Statements about `exec` of an operation give the whole next state, so they are also its
frame: what the equation does not write is unchanged.
-/
open Sys2Proof Sys2Proof.Machine

/-! ### Event words (30_encoding.md R45 to R48) -/

/-- Decoding and encoding agree: every operation's word decodes to it, with every field at every value,
and a word that decodes to an operation is the word written for it (30_encoding.md R45 to R47). -/
def Obligations.DecodeEncodeAgree : Prop :=
  ∀ i : Instr, decode (encode i) = .ok i ∧ ∀ w : EventWord, decode w = .ok i → encode i = w

/-- Words written out from the spec's tables decode to their operations (30_encoding.md R46, R47; the
event words of 95_test_vectors.md sections 2.4 and 2.6). -/
def Obligations.WrittenWordsDecode : Prop :=
  decode 0x00#8 = .ok .reset ∧ decode 0x20#8 = .ok .sample ∧ decode 0x43#8 = .ok (.frIdleStart true)
    ∧ decode 0x41#8 = .ok (.frIdleOther true) ∧ decode 0x4D#8 = .ok (.frPktEnd true false)
    ∧ decode 0x46#8 = .ok (.frPktAppend true) ∧ decode 0x4C#8 = .ok (.frPktFull false)
    ∧ decode 0x62#8 = .ok (.outByte true) ∧ decode 0x63#8 = .ok .outEmpty
    ∧ decode 0x80#8 = .ok .capfail ∧ decode 0xA7#8 = .ok .assemble ∧ decode 0xC0#8 = .ok .stop

/-- The decoder refuses exactly the words of R48's table, and a step refuses them by name
(30_encoding.md R48). -/
def Obligations.ReservedWordsRefused : Prop :=
  (∀ w : EventWord, EventWord.reserved w = true ↔ ∃ why, decode w = .error why)
    ∧ ∀ (s : State) (w : EventWord) (ws : List EventWord), s.pending = w :: ws →
      EventWord.reserved w = true → ∃ why, step s = .refused (.reservedWord w why)

/-- In every state the word of a frame step is no reserved word, and it is the word of exactly one
framer row (30_encoding.md R46, R48). -/
def Obligations.FrameWordNamesOneRow : Prop :=
  ∀ (cfg : Config) (st : Core) (k : ℕ),
    EventWord.reserved (frameWord cfg st (classify cfg k)) = false
      ∧ ∃! i : Instr, isFrameRow i = true ∧ encode i = frameWord cfg st (classify cfg k)

/-! ### Steps, clock edges, RESET -/

/-- A step takes the first pending word: it is `exec` of the operation the word decodes to, in the
state with that word taken away (30_encoding.md R45; log 9). -/
def Obligations.StepRunsDecodedOperation : Prop :=
  ∀ (s : State) (w : EventWord) (ws : List EventWord) (i : Instr), s.pending = w :: ws →
    decode w = .ok i → (s.booted = true ∨ i = .reset) → step s = exec i { s with pending := ws }

/-- Before the first RESET a step refuses every word but RESET's (70_reset_and_hazards.md R96). -/
def Obligations.FirstStepMustBeReset : Prop :=
  ∀ (s : State) (w : EventWord) (ws : List EventWord) (i : Instr), s.pending = w :: ws →
    decode w = .ok i → s.booted = false → i ≠ .reset → step s = .refused (.beforeReset w)

/-- With no word pending, a step begins the next clock edge: the ports take the next values the
environment drives, or, with none left, those of an edge at which no input is asserted (log 9); the
`fr_valid` pulse ends, and the edge's events are queued in the order of R88 (10_state.md R14;
60_exceptions.md R88). -/
def Obligations.ClockEdgeQueuesEventsInOrder : Prop :=
  ∀ (s : State) (p : Ports), s.pending = [] → p = s.inputs.headD Ports.idle →
    step s = .next
      { s with
        ports := p
        inputs := s.inputs.tail
        frOut := none
        freeCtr := s.freeCtr + 1
        pending :=
          if p.rst then [encode .reset]
          else
            (if p.capErr then [encode .capfail] else if p.sValid then [encode .sample] else [])
              ++ (match p.oReady, s.st.outq with
                | true, .byte _ last :: _ => [encode (.outByte last)]
                | true, .empty :: _ => [encode .outEmpty]
                | _, _ => []) }

/-- The core never refuses an input: from a started core, a clock edge with any port values and all its
events complete, and nothing stays pending (10_state.md R14, R16; 60_exceptions.md R88). -/
def Obligations.PortEventsNeverRefused : Prop :=
  ∀ s : State, s.booted = true → s.pending = [] →
    ∃ n t, n ≤ 3 ∧ Host.Core.run Sys2Proof.core n s = .next t ∧ t.pending = [] ∧ t.booted = true
      ∧ t.inputs = s.inputs.tail ∧ 0 < n

/-- RESET writes every field of `st` and ends the `fr_valid` pulse; it writes no parameter
(44_control.md R77). -/
def Obligations.ResetWritesEveryField : Prop :=
  ∀ s : State, exec .reset s = .next
    { s with
      st :=
        { run := .run, fbuf := [], fr := .idle, pkt := [], povf := false, outq := [], errCap := false,
          errPktovf := false, errOutqovf := false, lastErr := 0 }
      booted := true
      frOut := none
      obs := { s.obs with words := s.obs.words ++ [0x00#8] } }

/-- The state after RESET (10_state.md R25), in every configuration. -/
def Obligations.ResetStateAsStated : Prop :=
  ∀ cfg : Config, (State.resetWith cfg).st =
      { run := .run, fbuf := [], fr := .idle, pkt := [], povf := false, outq := [], errCap := false,
        errPktovf := false, errOutqovf := false, lastErr := 0 }
    ∧ statusWord (State.resetWith cfg).st = 0x0000#16
    ∧ (State.resetWith cfg).outPort.oValid = false
    ∧ (State.resetWith cfg).framePort.frValid = false

/-- An elaboration accepts exactly the parameters in range, unchanged (70_reset_and_hazards.md R98; the
types hold the ranges of the frequencies and of OVF_POLICY). -/
def Obligations.ElaborationChecksRanges : Prop :=
  tolHz = 20 ∧ ∀ p : Params, (∃ c : Config, Config.elaborate p = some c ∧ c.toParams = p)
    ↔ 1 ≤ p.sampleRateHz ∧ 2 ≤ p.frameN ∧ 1 ≤ p.stepHz ∧ 1 ≤ p.bits ∧ p.bits ≤ 16 ∧ 1 ≤ p.pktMax
      ∧ 1 ≤ p.outqDepth ∧ 0 ≤ p.peakEps ∧ p.frameLat < p.frameN

/-- No step writes the configuration (10_state.md R23; 70_reset_and_hazards.md R106). -/
def Obligations.NoStepWritesConfiguration : Prop :=
  ∀ s t : State, step s = .next t → t.cfg = s.cfg

/-! ### Status, errors, output ports -/

/-- The fields of the status word (10_state.md R17). -/
def Obligations.StatusWordFields : Prop :=
  ∀ st : Core,
    ((statusWord st).extractLsb' 0 2 =
        match st.run with
        | .run => 0b00#2
        | .stopped => 0b01#2
        | .halted => 0b10#2)
      ∧ (statusWord st).getLsbD 2 = decide (st.fr = .inPkt)
      ∧ (statusWord st).getLsbD 3 = st.povf
      ∧ (statusWord st).getLsbD 4 = st.errCap
      ∧ (statusWord st).getLsbD 5 = st.errPktovf
      ∧ (statusWord st).getLsbD 6 = st.errOutqovf
      ∧ (statusWord st).extractLsb' 7 3 = st.lastErr
      ∧ (statusWord st).extractLsb' 10 6 = 0b000000#6

/-- `record(code)` (60_exceptions.md R84), with the codes of R83. -/
def Obligations.RecordWritesStickyBitAndCode : Prop :=
  ∀ st : Core,
    record .captureFail st = { st with errCap := true, lastErr := 2 }
      ∧ record .pktOverflow st = { st with errPktovf := true, lastErr := 3 }
      ∧ record .outqOverflow st = { st with errOutqovf := true, lastErr := 4 }
      ∧ ∀ c, c ≠ .captureFail → c ≠ .pktOverflow → c ≠ .outqOverflow →
        record c st = { st with lastErr := errCode c }

/-- A sticky error bit, once set, stays set under every operation but RESET (10_state.md R22;
60_exceptions.md R90). -/
def Obligations.StickyBitsClearedOnlyByReset : Prop :=
  ∀ (i : Instr) (s t : State), i ≠ .reset → exec i s = .next t →
    (s.st.errCap = true → t.st.errCap = true) ∧ (s.st.errPktovf = true → t.st.errPktovf = true)
      ∧ (s.st.errOutqovf = true → t.st.errOutqovf = true)

/-- Each sticky bit is set only by its own event: `err_cap` by a CAPFAIL in RUN; `err_pktovf` by
FR_PKT_FULL, or by the SAMPLE that completes a frame in INPKT with a full packet and no end handshake;
`err_outqovf` by a byte stream that does not fit in the queue, in a DISPATCH, in FR_PKT_END of a packet
that did not overflow, or in the SAMPLE that completes such an end frame (10_state.md R17;
60_exceptions.md R83). -/
def Obligations.StickyBitsSetOnlyByTheirEvents : Prop :=
  ∀ (i : Instr) (s t : State), exec i s = .next t →
    (s.st.errCap = false → t.st.errCap = true → i = .capfail ∧ s.st.run = .run)
      ∧ (s.st.errPktovf = false → t.st.errPktovf = true →
          (∃ hs, i = .frPktFull hs)
            ∨ (i = .sample ∧ s.completesFrame ∧ s.st.packetFullAt s.cfg s.completedBin))
      ∧ (s.st.errOutqovf = false → t.st.errOutqovf = true →
          (i = .dispatch ∧ s.st.lacksRoom s.cfg s.args.bytes)
            ∨ (∃ full hs, i = .frPktEnd full hs ∧ s.st.povf = false
                ∧ s.st.lacksRoom s.cfg (finalize s.cfg s.st.pkt))
            ∨ (i = .sample ∧ s.completesFrame ∧ s.st.packetEndsAt s.cfg s.completedBin
                ∧ s.st.povf = false ∧ s.st.lacksRoom s.cfg (finalize s.cfg s.st.pkt)))

/-- The output port is valid exactly while the queue is not empty and shows the 10 bits of its head,
which are never the reserved beat; the debug port shows the report of the edge's frame step, or
`fr_valid` = 0 (10_state.md R15, R16; 30_encoding.md R42). -/
def Obligations.PortsShowHeadBeatAndReport : Prop :=
  ∀ s : State, (s.outPort.oValid = true ↔ s.st.outq ≠ [])
    ∧ (∀ b q, s.st.outq = b :: q →
      (∀ v last, b = .byte v last →
        s.outPort.bits.getLsbD 9 = false ∧ s.outPort.bits.getLsbD 8 = last
          ∧ s.outPort.bits.extractLsb' 0 8 = v)
      ∧ (b = .empty → s.outPort.bits = 0b1100000000#10))
    ∧ (∀ r, s.frOut = some r →
        s.framePort = { frValid := true, frBin := r.bin, frCls := r.cls })
    ∧ (s.frOut = none → s.framePort.frValid = false ∧ s.framePort.frBin < 2 ^ binWidth s.cfg)

/-- Only a transfer or RESET takes the head beat away: under every other operation the head of a
non-empty queue stays (10_state.md R16). -/
def Obligations.HeadBeatHeldUntilTaken : Prop :=
  ∀ (i : Instr) (s t : State) (b : Beat) (q : List Beat), i ≠ .reset → i ≠ .outEmpty →
    (∀ last, i ≠ .outByte last) → s.st.outq = b :: q → exec i s = .next t →
    ∃ q', t.st.outq = b :: q'

/-! ### SAMPLE, CAPFAIL, STOP, OUT (40_spectral.md R51; 44_control.md) -/

/-- A sample outside RUN has no effect (40_spectral.md R51; 44_control.md R82). -/
def Obligations.SampleIgnoredOutsideRun : Prop :=
  ∀ s : State, s.st.run ≠ .run → exec .sample s = .next s

/-- A sample that does not complete the frame is appended, and that is all (40_spectral.md R51). -/
def Obligations.SampleJoinsFrame : Prop :=
  ∀ s : State, s.st.run = .run → s.st.fbuf.length + 1 < s.cfg.frameN →
    exec .sample s = .next
      { s with
        st := { s.st with fbuf := s.st.fbuf ++ [s.ports.sData] }
        obs := { s.obs with words := s.obs.words ++ [0x20#8] } }

/-- The sample that completes a frame, `cancel` low: the frame buffer is emptied and one frame step
takes the whole frame, in the same step (40_spectral.md R51; 43_framer.md R68 to R73). -/
def Obligations.SampleCompletesFrame : Prop :=
  ∀ (s : State) (k : ℕ), s.st.run = .run → s.st.fbuf.length + 1 = s.cfg.frameN →
    s.ports.cancel = false → k = peakBin s.cfg (s.st.fbuf ++ [s.ports.sData]) →
    exec .sample s = .next
      { s with
        st := framerTable s.cfg k { s.st with fbuf := [] }
        frOut := some { bin := k, cls := classify s.cfg k }
        obs :=
          { s.obs with
            words := s.obs.words ++ [0x20#8, frameStepWord s.cfg k s.st]
            frames := s.obs.frames ++ [{ bin := k, cls := classify s.cfg k }] } }

/-- The sample that completes a frame, `cancel` high: the frame is processed first, then STOP
(43_framer.md R68; 44_control.md R78; 60_exceptions.md R88 item 3). -/
def Obligations.SampleCompletesFrameThenStops : Prop :=
  ∀ (s : State) (k : ℕ), s.st.run = .run → s.st.fbuf.length + 1 = s.cfg.frameN →
    s.ports.cancel = true → k = peakBin s.cfg (s.st.fbuf ++ [s.ports.sData]) →
    exec .sample s = .next
      { s with
        st :=
          { framerTable s.cfg k { s.st with fbuf := [] } with
            run := .stopped, fr := .idle, pkt := [], povf := false }
        frOut := some { bin := k, cls := classify s.cfg k }
        obs :=
          { s.obs with
            words := s.obs.words ++ [0x20#8, frameStepWord s.cfg k s.st, 0xC0#8]
            frames := s.obs.frames ++ [{ bin := k, cls := classify s.cfg k }] } }

/-- CAPFAIL in RUN halts the core, discards the partial frame and the packet and records the failure;
in STOPPED and HALTED it changes nothing (44_control.md R79). -/
def Obligations.CapfailHaltsOnce : Prop :=
  ∀ s : State, exec .capfail s = .next
    (if s.st.run = .run then
      { s with
        st :=
          { s.st with
            run := .halted, fbuf := [], pkt := [], fr := .idle, povf := false, errCap := true,
            lastErr := 2 }
        obs := { s.obs with words := s.obs.words ++ [0x80#8] } }
    else s)

/-- STOP at a frame boundary with `cancel` high: the packet is discarded, the queue kept (44_control.md
R78). -/
def Obligations.StopDiscardsPacketKeepsQueue : Prop :=
  ∀ s : State, s.st.run = .run → s.st.fbuf = [] → s.ports.cancel = true →
    exec .stop s = .next
      { s with
        st := { s.st with run := .stopped, pkt := [], fr := .idle, povf := false }
        obs := { s.obs with words := s.obs.words ++ [0xC0#8] } }

/-- `cancel` is read only by the frame step: a sample that does not complete a frame leaves the same
record whatever the level (44_control.md R78; 70_reset_and_hazards.md R105). -/
def Obligations.CancelReadOnlyAtFrameStep : Prop :=
  ∀ (s : State) (c : Bool), s.st.fbuf.length + 1 < s.cfg.frameN →
    ∃ t, exec .sample s = .next t
      ∧ exec .sample { s with ports := { s.ports with cancel := c } }
        = .next { t with ports := { s.ports with cancel := c } }

/-- OUT_BYTE takes the head byte beat, in every run state (44_control.md R80). -/
def Obligations.OutByteTakesHead : Prop :=
  ∀ (s : State) (b : Byte) (last : Bool) (q : List Beat), s.st.outq = .byte b last :: q →
    exec (.outByte last) s = .next
      { s with
        st := { s.st with outq := q }
        obs :=
          { s.obs with
            words := s.obs.words ++ [if last then 0x62#8 else 0x60#8]
            beats := s.obs.beats ++ [.byte b last] } }

/-- OUT_EMPTY takes the marker of an empty byte stream, in every run state (44_control.md R81). -/
def Obligations.OutEmptyTakesMarker : Prop :=
  ∀ (s : State) (q : List Beat), s.st.outq = .empty :: q →
    exec .outEmpty s = .next
      { s with
        st := { s.st with outq := q }
        obs := { s.obs with words := s.obs.words ++ [0x63#8], beats := s.obs.beats ++ [.empty] } }

/-- In the terminal states SAMPLE and CAPFAIL have no effect, whatever `cancel` is, the queue still
drains, and RESET is the only way back to RUN (44_control.md R82). -/
def Obligations.TerminalStatesLeftOnlyByReset : Prop :=
  ∀ s : State, s.st.run ≠ .run →
    exec .sample s = .next s ∧ exec .capfail s = .next s
      ∧ (∀ b q, s.st.outq = b :: q →
          ∃ i t, ((∃ last, i = .outByte last) ∨ i = .outEmpty) ∧ exec i s = .next t
            ∧ t.st = { s.st with outq := q })
      ∧ (∀ i t, i ≠ .reset → exec i s = .next t → t.st.run = s.st.run)
      ∧ ∃ t, exec .reset s = .next t ∧ t.st.run = .run

/-- The queue is a FIFO: under every operation but RESET, the beats the consumer has taken followed by
the beats still queued only grow at the end (20_memory.md R30, R36). -/
def Obligations.QueueIsFifo : Prop :=
  ∀ (i : Instr) (s t : State), i ≠ .reset → exec i s = .next t →
    s.obs.beats ++ s.st.outq <+: t.obs.beats ++ t.st.outq

/-! ### The framer rows (43_framer.md R69 to R73) -/

/-- FR_IDLE_START (43_framer.md R69). -/
def Obligations.IdleStartOpensPacket : Prop :=
  ∀ s : State, s.atFrame → s.st.fr = .idle → hsStart s.cfg s.args.bin = true →
    exec (.frIdleStart (hsEnd s.cfg s.args.bin)) s = .next
      (afterFrameWord s (encode (.frIdleStart (hsEnd s.cfg s.args.bin))) s.args.bin
        { s.st with fr := .inPkt, pkt := [], povf := false })

/-- FR_IDLE_OTHER (43_framer.md R70). -/
def Obligations.IdleOtherChangesNothing : Prop :=
  ∀ s : State, s.atFrame → s.st.fr = .idle → hsStart s.cfg s.args.bin = false →
    exec (.frIdleOther (hsEnd s.cfg s.args.bin)) s = .next
      (afterFrameWord s (encode (.frIdleOther (hsEnd s.cfg s.args.bin))) s.args.bin s.st)

/-- FR_PKT_APPEND (43_framer.md R71). -/
def Obligations.PktAppendCollectsBin : Prop :=
  ∀ s : State, s.atFrame → s.st.fr = .inPkt → hsEnd s.cfg s.args.bin = false →
    s.st.pkt.length < s.cfg.pktMax →
    exec (.frPktAppend (hsStart s.cfg s.args.bin)) s = .next
      (afterFrameWord s (encode (.frPktAppend (hsStart s.cfg s.args.bin))) s.args.bin
        { s.st with pkt := s.st.pkt ++ [s.args.bin] })

/-- FR_PKT_FULL, under both policies (43_framer.md R72). -/
def Obligations.PktFullHoldsOrAborts : Prop :=
  ∀ s : State, s.atFrame → s.st.fr = .inPkt → hsEnd s.cfg s.args.bin = false →
    s.st.pkt.length = s.cfg.pktMax →
    exec (.frPktFull (hsStart s.cfg s.args.bin)) s = .next
      (afterFrameWord s (encode (.frPktFull (hsStart s.cfg s.args.bin))) s.args.bin
        (match s.cfg.ovfPolicy with
        | .hold =>
          if s.st.povf then s.st
          else { s.st with povf := true, errPktovf := true, lastErr := 3 }
        | .abort => { s.st with pkt := [], fr := .idle, errPktovf := true, lastErr := 3 }))

/-- FR_PKT_END: the packet's byte stream is handed over whole or dropped whole, an overflowed packet is
dropped, and the framer returns to IDLE whatever happens to the bytes (43_framer.md R73). -/
def Obligations.PktEndDispatchesAndReturnsToIdle : Prop :=
  ∀ (s : State) (full : Bool), s.atFrame → s.st.fr = .inPkt → hsEnd s.cfg s.args.bin = true →
    full = decide (s.st.pkt.length = s.cfg.pktMax) →
    exec (.frPktEnd full (hsStart s.cfg s.args.bin)) s = .next
      (afterFrameWord s (encode (.frPktEnd full (hsStart s.cfg s.args.bin))) s.args.bin
        (if s.st.povf then { s.st with fr := .idle, pkt := [], povf := false }
        else
          { streamHandedOver s.cfg (finalize s.cfg s.st.pkt) s.st with
            fr := .idle, pkt := [], povf := false }))

/-- A word the core does not produce in the state at hand is refused by name (the model's choice, log 7;
30_encoding.md R46; 44_control.md R78, R80, R81): a FRAME word away from a frame boundary or that is
not the word of the frame step, an OUT word that is not the head beat's, STOP away from a frame
boundary or with `cancel` low. -/
def Obligations.WordsNotProducedAreRefused : Prop :=
  ∀ s : State,
    (∀ i : Instr, isFrameRow i = true →
        (¬ s.atFrame ∨ encode i ≠ frameStepWord s.cfg s.args.bin s.st) →
        exec i s = .refused (.notProduced (encode i)))
      ∧ (∀ last : Bool, (∀ b q, s.st.outq ≠ .byte b last :: q) →
          exec (.outByte last) s = .refused (.notProduced (encode (.outByte last))))
      ∧ ((∀ q, s.st.outq ≠ .empty :: q) →
          exec .outEmpty s = .refused (.notProduced (encode .outEmpty)))
      ∧ ((s.st.run ≠ .run ∨ s.st.fbuf ≠ [] ∨ s.ports.cancel = false) →
          exec .stop s = .refused (.notProduced (encode .stop)))

/-! ### The spectral peak detector (40_spectral.md R52 to R57) -/

/-- PEAK answers, for a frame of N samples, the bin of the peak function, and writes nothing of `st`;
any other operand is refused by name (40_spectral.md R52; the refusal is the model's choice, log 14). -/
def Obligations.PeakUnitAnswersPeakBin : Prop :=
  ∀ s : State,
    (s.args.frame.length = s.cfg.frameN →
      exec .peak s = .next { s with ret := .bin (peakBin s.cfg s.args.frame) })
      ∧ (s.args.frame.length ≠ s.cfg.frameN → exec .peak s = .refused .notAFrame)

/-- With `PEAK_EPS` = 0, PEAK answers the lowest bin of greatest power of the real discrete Fourier
transform (40_spectral.md R52). -/
def Obligations.PeakIsLowestGreatestBin : Prop :=
  ∀ s : State, s.args.frame.length = s.cfg.frameN → s.cfg.peakEps = 0 →
    ∃ k, exec .peak s = .next { s with ret := .bin k }
      ∧ IsLeast (greatestBins (numBins s.cfg + 1) s.cfg.frameN s.args.frame) k

/-- The core's peak function conforms in every configuration (40_spectral.md R54 (a) to (d)). -/
def Obligations.PeakFunctionConforms : Prop :=
  ∀ cfg : Config, ConformingPeak cfg (peakBin cfg)

/-- With `PEAK_EPS` = 0, PEAK's bin is the first maximum of the search over all N bins, and its frequency
`k*R/N` is that of the search's index under both readings, unsigned and signed (40_spectral.md R53). -/
def Obligations.PeakAgreesWithFullSpectrum : Prop :=
  ∀ s : State, s.args.frame.length = s.cfg.frameN → s.cfg.peakEps = 0 →
    ∃ k, exec .peak s = .next { s with ret := .bin k }
      ∧ IsLeast (greatestBins s.cfg.frameN s.cfg.frameN s.args.frame) k
      ∧ |(k : ℚ) / s.cfg.frameN| * s.cfg.sampleRateHz = bin2hz s.cfg k
      ∧ |(signedBin s.cfg.frameN k : ℚ) / s.cfg.frameN| * s.cfg.sampleRateHz = bin2hz s.cfg k

/-- BIN2HZ answers `k*R/N` exactly, never negative and never above `R/2` for a bin (40_spectral.md
R56). -/
def Obligations.Bin2HzIsExactFrequency : Prop :=
  ∀ s : State, ∃ f : ℚ, exec .bin2hz s = .next { s with ret := .hz f }
    ∧ f = (s.args.bin : ℚ) * s.cfg.sampleRateHz / s.cfg.frameN
    ∧ (s.args.bin ≤ numBins s.cfg → 0 ≤ f ∧ f ≤ (s.cfg.sampleRateHz : ℚ) / 2)

/-! ### Quantiser and handshakes (00_scope.md R10; 41_quantizer.md R58 to R63) -/

/-- `rne` is a nearest integer, and the even one at an exact half (00_scope.md R10). -/
def Obligations.RneNearestTiesToEven : Prop :=
  ∀ (num den : ℤ), 0 < den →
    2 * |num - rne num den * den| ≤ den
      ∧ (2 * |num - rne num den * den| = den → Even (rne num den))

/-- QUANT answers `q` exactly when `q` is in range and nearest to `(f - START_HZ)/STEP_HZ`, the even one
at an exact half (41_quantizer.md R58, R59). -/
def Obligations.QuantIsNearestSymbol : Prop :=
  ∀ s : State, ∃ r : Option ℕ, exec .quant s = .next { s with ret := .symbol r }
    ∧ ∀ q : ℕ, r = some q ↔
      q < 2 ^ s.cfg.bits
        ∧ 2 * |((s.args.bin : ℚ) * s.cfg.sampleRateHz / s.cfg.frameN - s.cfg.startHz) / s.cfg.stepHz - q|
          ≤ 1
        ∧ (2 * |((s.args.bin : ℚ) * s.cfg.sampleRateHz / s.cfg.frameN - s.cfg.startHz) / s.cfg.stepHz
            - q| = 1 → Even q)

/-- Frequency 0 is rejected exactly when `2*START_HZ > STEP_HZ` (40_spectral.md R57). -/
def Obligations.SilenceRejectedExactlyWhen : Prop :=
  ∀ cfg : Config, quant cfg 0 = none ↔ cfg.silenceRejected

/-- HS_START answers whether the bin's frequency is strictly within 20 Hz of `HS_START_HZ`
(41_quantizer.md R60). -/
def Obligations.HsStartStrictlyWithinTolerance : Prop :=
  ∀ s : State, ∃ b : Bool, exec .hsStart s = .next { s with ret := .flag b }
    ∧ (b = true ↔ |(s.args.bin : ℚ) * s.cfg.sampleRateHz / s.cfg.frameN - s.cfg.hsStartHz| < 20)

/-- HS_END answers whether the bin's frequency is strictly within 20 Hz of `HS_END_HZ` (41_quantizer.md
R61). -/
def Obligations.HsEndStrictlyWithinTolerance : Prop :=
  ∀ s : State, ∃ b : Bool, exec .hsEnd s = .next { s with ret := .flag b }
    ∧ (b = true ↔ |(s.args.bin : ℚ) * s.cfg.sampleRateHz / s.cfg.frameN - s.cfg.hsEndHz| < 20)

/-- CLASSIFY answers `{HS_END(k), HS_START(k)}`; `11` needs overlapping windows (41_quantizer.md R62;
30_encoding.md R43). -/
def Obligations.ClassifyPairsPredicates : Prop :=
  ∀ s : State, ∃ c : BitVec 2, exec .classify s = .next { s with ret := .cls c }
    ∧ c.getLsbD 0 = hsStart s.cfg s.args.bin ∧ c.getLsbD 1 = hsEnd s.cfg s.args.bin
    ∧ (c = 0b11#2 → ((s.cfg.hsStartHz : ℤ) - s.cfg.hsEndHz).natAbs < 2 * tolHz)

/-- The sufficient form of R97 item 2: handshake windows outside the symbol cells leave no bin that is
both data and a handshake (70_reset_and_hazards.md R97 items 2, 2a). -/
def Obligations.WindowsOutsideCellsKeepTonesApart : Prop :=
  ∀ cfg : Config, cfg.handshakeOutside cfg.hsStartHz → cfg.handshakeOutside cfg.hsEndHz →
    cfg.tonesApart

/-! ### Assembler and finalisation (42_assembler.md R64 to R67; 43_framer.md R74 to R76) -/

/-- ASSEMBLE, run by the loop of R64, answers the closed form of R65. -/
def Obligations.AssembleIsBigEndianBitstream : Prop :=
  ∀ s : State, ∃ out : List Byte, exec .assemble s = .next { s with ret := .bytes out }
    ∧ out.length = s.args.chunks.length * s.args.width / 8
    ∧ ∀ j < out.length, ∀ t < 8,
      (out.getD j 0).getLsbD (7 - t)
        = (s.args.chunks.getD ((8 * j + t) / s.args.width) 0).testBit
          (s.args.width - 1 - (8 * j + t) % s.args.width)

/-- The length law, the number of bits never emitted, and that more chunks only add bytes
(42_assembler.md R66). -/
def Obligations.AssembleLengthAndPrefix : Prop :=
  ∀ (w : ℕ) (cs ds : List ℕ), (assemble w cs).length = cs.length * w / 8
    ∧ 8 * (assemble w cs).length + cs.length * w % 8 = cs.length * w
    ∧ assemble w cs <+: assemble w (cs ++ ds)

/-- The round-trip law (42_assembler.md R67). -/
def Obligations.ExpandOfAssemble : Prop :=
  ∀ (w : ℕ) (cs : List ℕ), 0 < w → (∀ c ∈ cs, c < 2 ^ w) → cs.length * w % 8 = 0 →
    expand w (assemble w cs) = cs

/-- EVENIDX answers the elements at even indices (43_framer.md R74). -/
def Obligations.EvenidxKeepsEvenPositions : Prop :=
  ∀ s : State, ∃ l : List ℕ, exec .evenidx s = .next { s with ret := .bins l }
    ∧ l.length = (s.args.bins.length + 1) / 2 ∧ ∀ n : ℕ, l[n]? = s.args.bins[2 * n]?

/-- FINALIZE answers ASSEMBLE of the accepted symbols at even indices, rejected bins leaving no
placeholder (43_framer.md R75). -/
def Obligations.FinalizeDemodulatesEvenBins : Prop :=
  ∀ (s : State) (syms : List ℕ),
    syms = ((List.range ((s.args.bins.length + 1) / 2)).map fun n => s.args.bins.getD (2 * n) 0).filterMap
      (quant s.cfg) →
    exec .finalize s = .next { s with ret := .bytes (assemble s.cfg.bits syms) }
      ∧ (assemble s.cfg.bits syms).length = syms.length * s.cfg.bits / 8

/-- Odd positions of a packet are dropped whatever they hold (43_framer.md R74, R75). -/
def Obligations.FinalizeIgnoresOddPositions : Prop :=
  ∀ (cfg : Config) (p q : List ℕ), p.length = q.length → (∀ n : ℕ, p[2 * n]? = q[2 * n]?) →
    finalize cfg p = finalize cfg q

/-- DISPATCH pushes every beat of the stream in one step, or none and records the overflow
(43_framer.md R76). -/
def Obligations.DispatchAllOrNothing : Prop :=
  ∀ s : State, exec .dispatch s = .next
    { s with
      st :=
        if s.st.outq.length + (beatsOfStream s.args.bytes).length ≤ s.cfg.outqDepth then
          { s.st with outq := s.st.outq ++ beatsOfStream s.args.bytes }
        else { s.st with errOutqovf := true, lastErr := 4 } }

/-- With R97 item 6, a packet's byte stream fits in an empty queue: the end handshake dispatches it and
records nothing (70_reset_and_hazards.md R97 item 6). -/
def Obligations.PacketFitsEmptyQueue : Prop :=
  ∀ (cfg : Config) (st : Core), cfg.queueFits → st.Inv cfg → st.outq = [] → st.povf = false →
    (rowPktEnd cfg st).outq = beatsOfStream (finalize cfg st.pkt)
      ∧ (rowPktEnd cfg st).errOutqovf = st.errOutqovf ∧ (rowPktEnd cfg st).lastErr = st.lastErr

/-! ### Headline results -/

/-- Every step keeps the invariants of 10_state.md R18 and R19. -/
def Obligations.StepKeepsInvariant : Prop :=
  ∀ s t : State, s.Inv → step s = .next t → t.Inv

/-- RESET establishes the invariants, in every configuration (10_state.md R19). -/
def Obligations.ResetMeetsInvariant : Prop :=
  ∀ cfg : Config, (State.resetWith cfg).Inv

/-- A transmission in the sender's convention, start tone, each data tone twice, end tone, taken from an
idle framer with an empty queue, leaves exactly the byte stream of its symbols in the queue
(30_encoding.md R50 `PACKET`; 43_framer.md R69 to R76; 70_reset_and_hazards.md R97 item 2). A tone sent
for a number of `2^BITS` or more is no symbol: unless it is the end tone, it is collected and dropped
(41_quantizer.md R58). -/
def Obligations.PacketDecodesToItsSymbols : Prop :=
  ∀ (s : State) (syms : List ℕ) (ts : List ToneStep), s.cfg.tonesApart →
    packetSteps s.cfg syms = some ts →
    (∀ n ∈ syms, 2 ^ s.cfg.bits ≤ n → ∀ k ≤ numBins s.cfg,
      k * s.cfg.sampleRateHz = symHz s.cfg n * s.cfg.frameN → hsEnd s.cfg k = false) →
    s.st.run = .run → s.st.fr = .idle → s.st.outq = [] →
    s.st.povf = false → s.st.pkt = [] → 2 * syms.length ≤ s.cfg.pktMax →
    (beatsOfStream (assemble s.cfg.bits (syms.filter (· < 2 ^ s.cfg.bits)))).length
      ≤ s.cfg.outqDepth →
    (runTones ts false s).st =
      { s.st with
        outq := beatsOfStream (assemble s.cfg.bits (syms.filter (· < 2 ^ s.cfg.bits))) }

/-- The tone programs that must be refused, and no more of these lines: lines before the first RESET; a
TONE with no exact bin; SYM s exactly when the tone `START_HZ + s*STEP_HZ` has none; a PACKET exactly when
one of its tones has none; `BYTES` exactly when its bits are no whole number of symbols or its PACKET is
illegal (30_encoding.md R50; 93 I16). That FRAME k is refused above NB is the model's choice, read from
the range of R40 (log 19). -/
def Obligations.IllegalToneLinesRefused : Prop :=
  ∀ (cfg : Config) (l : ToneLine) (ls : List ToneLine),
    (l ≠ .reset → programSteps cfg (l :: ls) = none)
      ∧ (lineSteps cfg l = none → ∀ before after, programSteps cfg (before ++ l :: after) = none)
      ∧ (∀ f, lineSteps cfg (.tone f) = none
          ↔ ¬ ∃ k ≤ numBins cfg, k * cfg.sampleRateHz = f * cfg.frameN)
      ∧ (∀ k, lineSteps cfg (.frame k) = none ↔ numBins cfg < k)
      ∧ (∀ n, lineSteps cfg (.sym n) = none
          ↔ ¬ ∃ k ≤ numBins cfg,
            k * cfg.sampleRateHz = (cfg.startHz + n * cfg.stepHz) * cfg.frameN)
      ∧ (∀ syms, lineSteps cfg (.packet syms) = none
          ↔ lineSteps cfg .hs = none ∨ (∃ n ∈ syms, lineSteps cfg (.sym n) = none)
            ∨ lineSteps cfg .he = none)
      ∧ ∀ bs, lineSteps cfg (.bytes bs) = none
          ↔ 8 * bs.length % cfg.bits ≠ 0 ∨ lineSteps cfg (.packet (expand cfg.bits bs)) = none
end

