-- ==== Sys2Proof/Laws/State.lean ====
section
/-!
SUPPORT. One lemma per field per update of the state and of the record `st`, each true by `rfl`, so that
no proof unfolds a record update.
-/
namespace Sys2Proof.Machine

/-! ### `setCore` -/

@[simp] theorem setCore_cfg (c : Core) (s : State) : (setCore c s).cfg = s.cfg := rfl
@[simp] theorem setCore_st (c : Core) (s : State) : (setCore c s).st = c := rfl
@[simp] theorem setCore_booted (c : Core) (s : State) : (setCore c s).booted = s.booted := rfl
@[simp] theorem setCore_ports (c : Core) (s : State) : (setCore c s).ports = s.ports := rfl
@[simp] theorem setCore_frOut (c : Core) (s : State) : (setCore c s).frOut = s.frOut := rfl
@[simp] theorem setCore_obs (c : Core) (s : State) : (setCore c s).obs = s.obs := rfl
@[simp] theorem setCore_args (c : Core) (s : State) : (setCore c s).args = s.args := rfl
@[simp] theorem setCore_ret (c : Core) (s : State) : (setCore c s).ret = s.ret := rfl
@[simp] theorem setCore_pending (c : Core) (s : State) : (setCore c s).pending = s.pending := rfl
@[simp] theorem setCore_inputs (c : Core) (s : State) : (setCore c s).inputs = s.inputs := rfl
@[simp] theorem setCore_freeCtr (c : Core) (s : State) : (setCore c s).freeCtr = s.freeCtr := rfl

/-! ### `logWord` -/

@[simp] theorem logWord_cfg (w : EventWord) (s : State) : (logWord w s).cfg = s.cfg := rfl
@[simp] theorem logWord_st (w : EventWord) (s : State) : (logWord w s).st = s.st := rfl
@[simp] theorem logWord_booted (w : EventWord) (s : State) : (logWord w s).booted = s.booted := rfl
@[simp] theorem logWord_ports (w : EventWord) (s : State) : (logWord w s).ports = s.ports := rfl
@[simp] theorem logWord_frOut (w : EventWord) (s : State) : (logWord w s).frOut = s.frOut := rfl
@[simp] theorem logWord_obs (w : EventWord) (s : State) :
    (logWord w s).obs = { s.obs with words := s.obs.words ++ [w] } := rfl
@[simp] theorem logWord_args (w : EventWord) (s : State) : (logWord w s).args = s.args := rfl
@[simp] theorem logWord_ret (w : EventWord) (s : State) : (logWord w s).ret = s.ret := rfl
@[simp] theorem logWord_pending (w : EventWord) (s : State) :
    (logWord w s).pending = s.pending := rfl
@[simp] theorem logWord_inputs (w : EventWord) (s : State) : (logWord w s).inputs = s.inputs := rfl
@[simp] theorem logWord_freeCtr (w : EventWord) (s : State) :
    (logWord w s).freeCtr = s.freeCtr := rfl

/-! ### `logBeat` -/

@[simp] theorem logBeat_cfg (b : Beat) (s : State) : (logBeat b s).cfg = s.cfg := rfl
@[simp] theorem logBeat_st (b : Beat) (s : State) : (logBeat b s).st = s.st := rfl
@[simp] theorem logBeat_booted (b : Beat) (s : State) : (logBeat b s).booted = s.booted := rfl
@[simp] theorem logBeat_ports (b : Beat) (s : State) : (logBeat b s).ports = s.ports := rfl
@[simp] theorem logBeat_frOut (b : Beat) (s : State) : (logBeat b s).frOut = s.frOut := rfl
@[simp] theorem logBeat_obs (b : Beat) (s : State) :
    (logBeat b s).obs = { s.obs with beats := s.obs.beats ++ [b] } := rfl
@[simp] theorem logBeat_args (b : Beat) (s : State) : (logBeat b s).args = s.args := rfl
@[simp] theorem logBeat_ret (b : Beat) (s : State) : (logBeat b s).ret = s.ret := rfl
@[simp] theorem logBeat_pending (b : Beat) (s : State) : (logBeat b s).pending = s.pending := rfl
@[simp] theorem logBeat_inputs (b : Beat) (s : State) : (logBeat b s).inputs = s.inputs := rfl
@[simp] theorem logBeat_freeCtr (b : Beat) (s : State) : (logBeat b s).freeCtr = s.freeCtr := rfl

/-! ### `emitFr` -/

@[simp] theorem emitFr_cfg (k : Nat) (c : BitVec 2) (s : State) : (emitFr k c s).cfg = s.cfg := rfl
@[simp] theorem emitFr_st (k : Nat) (c : BitVec 2) (s : State) : (emitFr k c s).st = s.st := rfl
@[simp] theorem emitFr_booted (k : Nat) (c : BitVec 2) (s : State) :
    (emitFr k c s).booted = s.booted := rfl
@[simp] theorem emitFr_ports (k : Nat) (c : BitVec 2) (s : State) :
    (emitFr k c s).ports = s.ports := rfl
@[simp] theorem emitFr_frOut (k : Nat) (c : BitVec 2) (s : State) :
    (emitFr k c s).frOut = some { bin := k, cls := c } := rfl
@[simp] theorem emitFr_obs (k : Nat) (c : BitVec 2) (s : State) :
    (emitFr k c s).obs = { s.obs with frames := s.obs.frames ++ [{ bin := k, cls := c }] } := rfl
@[simp] theorem emitFr_args (k : Nat) (c : BitVec 2) (s : State) :
    (emitFr k c s).args = s.args := rfl
@[simp] theorem emitFr_ret (k : Nat) (c : BitVec 2) (s : State) : (emitFr k c s).ret = s.ret := rfl
@[simp] theorem emitFr_pending (k : Nat) (c : BitVec 2) (s : State) :
    (emitFr k c s).pending = s.pending := rfl
@[simp] theorem emitFr_inputs (k : Nat) (c : BitVec 2) (s : State) :
    (emitFr k c s).inputs = s.inputs := rfl
@[simp] theorem emitFr_freeCtr (k : Nat) (c : BitVec 2) (s : State) :
    (emitFr k c s).freeCtr = s.freeCtr := rfl

/-! ### `answer` -/

@[simp] theorem answer_cfg (r : UnitResult) (s : State) : (answer r s).cfg = s.cfg := rfl
@[simp] theorem answer_st (r : UnitResult) (s : State) : (answer r s).st = s.st := rfl
@[simp] theorem answer_booted (r : UnitResult) (s : State) : (answer r s).booted = s.booted := rfl
@[simp] theorem answer_ports (r : UnitResult) (s : State) : (answer r s).ports = s.ports := rfl
@[simp] theorem answer_frOut (r : UnitResult) (s : State) : (answer r s).frOut = s.frOut := rfl
@[simp] theorem answer_obs (r : UnitResult) (s : State) : (answer r s).obs = s.obs := rfl
@[simp] theorem answer_args (r : UnitResult) (s : State) : (answer r s).args = s.args := rfl
@[simp] theorem answer_ret (r : UnitResult) (s : State) : (answer r s).ret = r := rfl
@[simp] theorem answer_pending (r : UnitResult) (s : State) :
    (answer r s).pending = s.pending := rfl
@[simp] theorem answer_inputs (r : UnitResult) (s : State) : (answer r s).inputs = s.inputs := rfl
@[simp] theorem answer_freeCtr (r : UnitResult) (s : State) :
    (answer r s).freeCtr = s.freeCtr := rfl

/-! ### `startCycle` -/

@[simp] theorem startCycle_cfg (p : Ports) (s : State) : (startCycle p s).cfg = s.cfg := rfl
@[simp] theorem startCycle_st (p : Ports) (s : State) : (startCycle p s).st = s.st := rfl
@[simp] theorem startCycle_booted (p : Ports) (s : State) :
    (startCycle p s).booted = s.booted := rfl
@[simp] theorem startCycle_ports (p : Ports) (s : State) : (startCycle p s).ports = p := rfl
@[simp] theorem startCycle_frOut (p : Ports) (s : State) : (startCycle p s).frOut = none := rfl
@[simp] theorem startCycle_obs (p : Ports) (s : State) : (startCycle p s).obs = s.obs := rfl
@[simp] theorem startCycle_args (p : Ports) (s : State) : (startCycle p s).args = s.args := rfl
@[simp] theorem startCycle_ret (p : Ports) (s : State) : (startCycle p s).ret = s.ret := rfl
@[simp] theorem startCycle_pending (p : Ports) (s : State) :
    (startCycle p s).pending = cycleWords p s.st.outq := rfl
@[simp] theorem startCycle_inputs (p : Ports) (s : State) :
    (startCycle p s).inputs = s.inputs := rfl
@[simp] theorem startCycle_freeCtr (p : Ports) (s : State) :
    (startCycle p s).freeCtr = s.freeCtr + 1 := rfl

/-! ### `fbufAppend` -/

@[simp] theorem fbufAppend_run (d : Sample) (c : Core) : (fbufAppend d c).run = c.run := rfl
@[simp] theorem fbufAppend_fbuf (d : Sample) (c : Core) :
    (fbufAppend d c).fbuf = c.fbuf ++ [d] := rfl
@[simp] theorem fbufAppend_fr (d : Sample) (c : Core) : (fbufAppend d c).fr = c.fr := rfl
@[simp] theorem fbufAppend_pkt (d : Sample) (c : Core) : (fbufAppend d c).pkt = c.pkt := rfl
@[simp] theorem fbufAppend_povf (d : Sample) (c : Core) : (fbufAppend d c).povf = c.povf := rfl
@[simp] theorem fbufAppend_outq (d : Sample) (c : Core) : (fbufAppend d c).outq = c.outq := rfl
@[simp] theorem fbufAppend_errCap (d : Sample) (c : Core) :
    (fbufAppend d c).errCap = c.errCap := rfl
@[simp] theorem fbufAppend_errPktovf (d : Sample) (c : Core) :
    (fbufAppend d c).errPktovf = c.errPktovf := rfl
@[simp] theorem fbufAppend_errOutqovf (d : Sample) (c : Core) :
    (fbufAppend d c).errOutqovf = c.errOutqovf := rfl
@[simp] theorem fbufAppend_lastErr (d : Sample) (c : Core) :
    (fbufAppend d c).lastErr = c.lastErr := rfl

/-! ### `fbufClear` -/

@[simp] theorem fbufClear_run (c : Core) : (fbufClear c).run = c.run := rfl
@[simp] theorem fbufClear_fbuf (c : Core) : (fbufClear c).fbuf = [] := rfl
@[simp] theorem fbufClear_fr (c : Core) : (fbufClear c).fr = c.fr := rfl
@[simp] theorem fbufClear_pkt (c : Core) : (fbufClear c).pkt = c.pkt := rfl
@[simp] theorem fbufClear_povf (c : Core) : (fbufClear c).povf = c.povf := rfl
@[simp] theorem fbufClear_outq (c : Core) : (fbufClear c).outq = c.outq := rfl
@[simp] theorem fbufClear_errCap (c : Core) : (fbufClear c).errCap = c.errCap := rfl
@[simp] theorem fbufClear_errPktovf (c : Core) : (fbufClear c).errPktovf = c.errPktovf := rfl
@[simp] theorem fbufClear_errOutqovf (c : Core) : (fbufClear c).errOutqovf = c.errOutqovf := rfl
@[simp] theorem fbufClear_lastErr (c : Core) : (fbufClear c).lastErr = c.lastErr := rfl

/-! ### `pktAppend` -/

@[simp] theorem pktAppend_run (k : Nat) (c : Core) : (pktAppend k c).run = c.run := rfl
@[simp] theorem pktAppend_fbuf (k : Nat) (c : Core) : (pktAppend k c).fbuf = c.fbuf := rfl
@[simp] theorem pktAppend_fr (k : Nat) (c : Core) : (pktAppend k c).fr = c.fr := rfl
@[simp] theorem pktAppend_pkt (k : Nat) (c : Core) : (pktAppend k c).pkt = c.pkt ++ [k] := rfl
@[simp] theorem pktAppend_povf (k : Nat) (c : Core) : (pktAppend k c).povf = c.povf := rfl
@[simp] theorem pktAppend_outq (k : Nat) (c : Core) : (pktAppend k c).outq = c.outq := rfl
@[simp] theorem pktAppend_errCap (k : Nat) (c : Core) : (pktAppend k c).errCap = c.errCap := rfl
@[simp] theorem pktAppend_errPktovf (k : Nat) (c : Core) :
    (pktAppend k c).errPktovf = c.errPktovf := rfl
@[simp] theorem pktAppend_errOutqovf (k : Nat) (c : Core) :
    (pktAppend k c).errOutqovf = c.errOutqovf := rfl
@[simp] theorem pktAppend_lastErr (k : Nat) (c : Core) : (pktAppend k c).lastErr = c.lastErr := rfl

/-! ### `outqPush` -/

@[simp] theorem outqPush_run (bs : List Beat) (c : Core) : (outqPush bs c).run = c.run := rfl
@[simp] theorem outqPush_fbuf (bs : List Beat) (c : Core) : (outqPush bs c).fbuf = c.fbuf := rfl
@[simp] theorem outqPush_fr (bs : List Beat) (c : Core) : (outqPush bs c).fr = c.fr := rfl
@[simp] theorem outqPush_pkt (bs : List Beat) (c : Core) : (outqPush bs c).pkt = c.pkt := rfl
@[simp] theorem outqPush_povf (bs : List Beat) (c : Core) : (outqPush bs c).povf = c.povf := rfl
@[simp] theorem outqPush_outq (bs : List Beat) (c : Core) :
    (outqPush bs c).outq = c.outq ++ bs := rfl
@[simp] theorem outqPush_errCap (bs : List Beat) (c : Core) :
    (outqPush bs c).errCap = c.errCap := rfl
@[simp] theorem outqPush_errPktovf (bs : List Beat) (c : Core) :
    (outqPush bs c).errPktovf = c.errPktovf := rfl
@[simp] theorem outqPush_errOutqovf (bs : List Beat) (c : Core) :
    (outqPush bs c).errOutqovf = c.errOutqovf := rfl
@[simp] theorem outqPush_lastErr (bs : List Beat) (c : Core) :
    (outqPush bs c).lastErr = c.lastErr := rfl

/-! ### `outqPop` -/

@[simp] theorem outqPop_run (c : Core) : (outqPop c).run = c.run := rfl
@[simp] theorem outqPop_fbuf (c : Core) : (outqPop c).fbuf = c.fbuf := rfl
@[simp] theorem outqPop_fr (c : Core) : (outqPop c).fr = c.fr := rfl
@[simp] theorem outqPop_pkt (c : Core) : (outqPop c).pkt = c.pkt := rfl
@[simp] theorem outqPop_povf (c : Core) : (outqPop c).povf = c.povf := rfl
@[simp] theorem outqPop_outq (c : Core) : (outqPop c).outq = c.outq.tail := rfl
@[simp] theorem outqPop_errCap (c : Core) : (outqPop c).errCap = c.errCap := rfl
@[simp] theorem outqPop_errPktovf (c : Core) : (outqPop c).errPktovf = c.errPktovf := rfl
@[simp] theorem outqPop_errOutqovf (c : Core) : (outqPop c).errOutqovf = c.errOutqovf := rfl
@[simp] theorem outqPop_lastErr (c : Core) : (outqPop c).lastErr = c.lastErr := rfl

/-! ### `closePacket` -/

@[simp] theorem closePacket_run (c : Core) : (closePacket c).run = c.run := rfl
@[simp] theorem closePacket_fbuf (c : Core) : (closePacket c).fbuf = c.fbuf := rfl
@[simp] theorem closePacket_fr (c : Core) : (closePacket c).fr = .idle := rfl
@[simp] theorem closePacket_pkt (c : Core) : (closePacket c).pkt = [] := rfl
@[simp] theorem closePacket_povf (c : Core) : (closePacket c).povf = false := rfl
@[simp] theorem closePacket_outq (c : Core) : (closePacket c).outq = c.outq := rfl
@[simp] theorem closePacket_errCap (c : Core) : (closePacket c).errCap = c.errCap := rfl
@[simp] theorem closePacket_errPktovf (c : Core) : (closePacket c).errPktovf = c.errPktovf := rfl
@[simp] theorem closePacket_errOutqovf (c : Core) : (closePacket c).errOutqovf = c.errOutqovf := rfl
@[simp] theorem closePacket_lastErr (c : Core) : (closePacket c).lastErr = c.lastErr := rfl

/-! ### `enterTerminal` -/

@[simp] theorem enterTerminal_run (r : Run) (c : Core) : (enterTerminal r c).run = r := rfl
@[simp] theorem enterTerminal_fbuf (r : Run) (c : Core) : (enterTerminal r c).fbuf = c.fbuf := rfl
@[simp] theorem enterTerminal_fr (r : Run) (c : Core) : (enterTerminal r c).fr = .idle := rfl
@[simp] theorem enterTerminal_pkt (r : Run) (c : Core) : (enterTerminal r c).pkt = [] := rfl
@[simp] theorem enterTerminal_povf (r : Run) (c : Core) : (enterTerminal r c).povf = false := rfl
@[simp] theorem enterTerminal_outq (r : Run) (c : Core) : (enterTerminal r c).outq = c.outq := rfl
@[simp] theorem enterTerminal_errCap (r : Run) (c : Core) :
    (enterTerminal r c).errCap = c.errCap := rfl
@[simp] theorem enterTerminal_errPktovf (r : Run) (c : Core) :
    (enterTerminal r c).errPktovf = c.errPktovf := rfl
@[simp] theorem enterTerminal_errOutqovf (r : Run) (c : Core) :
    (enterTerminal r c).errOutqovf = c.errOutqovf := rfl
@[simp] theorem enterTerminal_lastErr (r : Run) (c : Core) :
    (enterTerminal r c).lastErr = c.lastErr := rfl

/-! ### `record` -/

@[simp] theorem record_run (e : ErrCode) (c : Core) : (record e c).run = c.run := rfl
@[simp] theorem record_fbuf (e : ErrCode) (c : Core) : (record e c).fbuf = c.fbuf := rfl
@[simp] theorem record_fr (e : ErrCode) (c : Core) : (record e c).fr = c.fr := rfl
@[simp] theorem record_pkt (e : ErrCode) (c : Core) : (record e c).pkt = c.pkt := rfl
@[simp] theorem record_povf (e : ErrCode) (c : Core) : (record e c).povf = c.povf := rfl
@[simp] theorem record_outq (e : ErrCode) (c : Core) : (record e c).outq = c.outq := rfl
@[simp] theorem record_errCap (e : ErrCode) (c : Core) :
    (record e c).errCap = (c.errCap || decide (e = .captureFail)) := rfl
@[simp] theorem record_errPktovf (e : ErrCode) (c : Core) :
    (record e c).errPktovf = (c.errPktovf || decide (e = .pktOverflow)) := rfl
@[simp] theorem record_errOutqovf (e : ErrCode) (c : Core) :
    (record e c).errOutqovf = (c.errOutqovf || decide (e = .outqOverflow)) := rfl
@[simp] theorem record_lastErr (e : ErrCode) (c : Core) : (record e c).lastErr = errCode e := rfl

end Sys2Proof.Machine
end

