-- ==== Sys2Proof/Laws/Ops.lean ====
section
/-!
SUPPORT. For each shared operation one lemma that says once what it can do, for proofs to cite instead
of unfolding it.
-/
namespace Sys2Proof.Machine

/-! ### List operations (00_scope.md R11) -/

theorem keepSome_eq_filterMap {α β : Type} (g : α → Option β) (xs : List α) :
    keepSome g xs = xs.filterMap g := by
  induction xs with
  | nil => rfl
  | cons x xs ih => cases h : g x <;> simp [keepSome, h, ih]

theorem evenIdx_getElem? {α : Type} (xs : List α) (n : ℕ) : (evenIdx xs)[n]? = xs[2 * n]? := by
  induction xs using evenIdx.induct generalizing n with
  | case1 => simp [evenIdx]
  | case2 x => cases n <;> simp [evenIdx, Nat.mul_succ]
  | case3 x y xs ih => cases n <;> simp [evenIdx, Nat.mul_succ, ih]

theorem length_evenIdx {α : Type} (xs : List α) : (evenIdx xs).length = (xs.length + 1) / 2 := by
  induction xs using evenIdx.induct with
  | case1 => simp [evenIdx]
  | case2 x => simp [evenIdx]
  | case3 x y xs ih => simp [evenIdx, ih]; omega

theorem evenIdx_append_pair {α : Type} (xs : List α) (x y : α) (h : xs.length % 2 = 0) :
    evenIdx (xs ++ [x, y]) = evenIdx xs ++ [x] := by
  induction xs using evenIdx.induct with
  | case1 => rfl
  | case2 z => simp at h
  | case3 z w xs ih =>
    have h' : xs.length % 2 = 0 := by simp only [List.length_cons] at h; omega
    simp [evenIdx, ih h']

/-! ### Beats and byte streams (30_encoding.md R42) -/

/-- The beats of a stream, as R42's table reads them. -/
theorem streamBeats_eq (bs : List Byte) : streamBeats bs = beatsOfStream bs := by
  rcases bs.eq_nil_or_concat with rfl | ⟨cs, b, rfl⟩
  · rfl
  · simp only [streamBeats, beatsOfStream, List.getLast?_concat, List.dropLast_concat,
      List.append_eq_nil_iff, List.cons_ne_nil, and_false, if_false, List.concat_eq_append]
    induction cs with
    | nil => rfl
    | cons c cs ih =>
      obtain ⟨d, ds, h⟩ : ∃ d ds, cs ++ [b] = d :: ds := by cases cs <;> simp
      rw [List.cons_append, h, byteBeats, ← h, ih, List.map_cons, List.cons_append]
      simp

theorem length_beatsOfStream (bs : List Byte) : (beatsOfStream bs).length = max 1 bs.length := by
  rcases bs.eq_nil_or_concat with rfl | ⟨cs, b, rfl⟩ <;> simp [beatsOfStream]

theorem wholeStreams_append {p q : List Beat} (hp : wholeStreams p = true)
    (hq : wholeStreams q = true) : wholeStreams (p ++ q) = true := by
  induction p using wholeStreams.induct with
  | case1 => exact hq
  | case2 p ih => exact ih hp
  | case3 b p ih => exact ih hp
  | case4 b c l p ih => exact ih hp
  | case5 b p h => cases p with
    | nil => simp [wholeStreams] at hp
    | cons x xs => cases x with
      | byte c l => exact absurd rfl (h c l xs)
      | empty => simp [wholeStreams] at hp

theorem wholeStreams_tail {b : Beat} {q : List Beat} (h : wholeStreams (b :: q) = true) :
    wholeStreams q = true := by
  cases b with
  | empty => exact h
  | byte c l =>
    cases l with
    | true => exact h
    | false =>
      cases q with
      | nil => rfl
      | cons x xs => cases x with
        | byte d l => exact h
        | empty => simp [wholeStreams] at h

theorem wholeStreams_beatsOfStream (bs : List Byte) : wholeStreams (beatsOfStream bs) = true := by
  rw [← streamBeats_eq]
  unfold streamBeats
  split
  · rfl
  · rename_i h
    induction bs using byteBeats.induct with
    | case1 => exact absurd rfl h
    | case2 b => rfl
    | case3 b bs hne ih =>
      cases bs with
      | nil => exact absurd rfl hne
      | cons c cs =>
        have := ih (by simp)
        cases cs <;> exact this

/-! ### DISPATCH and the framer rows (43_framer.md) -/

/-- DISPATCH is all or nothing (43_framer.md R76). -/
theorem dispatch_eq (cfg : Config) (bs : List Byte) (st : Core) :
    dispatch cfg bs st = streamHandedOver cfg bs st := by
  simp only [dispatch, streamHandedOver, streamBeats_eq]
  split
  · rfl
  · simp [record, errCode]

/-- The row for a full packet buffer (43_framer.md R72). -/
theorem rowPktFull_eq (cfg : Config) (st : Core) : rowPktFull cfg st = packetOverflowed cfg st := by
  unfold rowPktFull packetOverflowed
  cases cfg.ovfPolicy <;> cases st.povf <;> simp [record, errCode]

/-- The row for the end handshake (43_framer.md R73). -/
theorem rowPktEnd_eq (cfg : Config) (st : Core) : rowPktEnd cfg st = packetEnded cfg st := by
  simp only [rowPktEnd, packetEnded, dispatch_eq]
  rfl

/-- The word of a frame step (30_encoding.md R46). -/
theorem frameWord_eq (cfg : Config) (st : Core) (k : ℕ) :
    frameWord cfg st (classify cfg k) = frameStepWord cfg k st := by
  unfold frameWord frameStepWord classify
  have h1 : ∀ a b : Bool, (clsOf a b).getLsbD 0 = a ∧ (clsOf a b).getLsbD 1 = b := by decide
  rw [(h1 _ _).1, (h1 _ _).2]
  congr 1
  · simp [pktFull, Bool.decide_and]
  · cases st.fr <;> rfl

/-- What each FRAME word's fields select (30_encoding.md R46): the row of the tables, by the masks. -/
theorem frameRow_bits (cfg : Config) (full fr hs he : Bool) (k : ℕ) (st : Core) (hf : full = true → fr = true) :
    frameRow cfg (frameBits full fr hs he) k st =
      if fr then
        if he then rowPktEnd cfg st else if full then rowPktFull cfg st else rowPktAppend k st
      else if hs then rowIdleStart st else rowIdleOther st := by
  cases full <;> cases fr <;> cases hs <;> cases he <;> simp at hf <;> rfl

/-- The row of a frame step is the framer table's (30_encoding.md R44; 43_framer.md R68). -/
theorem frameRow_eq (cfg : Config) (k : ℕ) (st st' : Core) (hfr : st'.fr = st.fr)
    (hpkt : st'.pkt = st.pkt) : frameRow cfg (frameStepWord cfg k st) k st' = framerTable cfg k st' := by
  unfold frameStepWord
  rw [frameRow_bits _ _ _ _ _ _ _ (by simp; exact fun h _ => h), rowPktEnd_eq, rowPktFull_eq]
  unfold framerTable rowIdleStart rowIdleOther rowPktAppend pktAppend
  rw [hfr, hpkt]
  cases h : st.fr <;> simp

/-- Handing over a stream touches one sticky bit only, `err_outqovf`, and only when there is no room. -/
theorem streamHandedOver_errors (cfg : Config) (bs : List Byte) (st : Core) :
    (streamHandedOver cfg bs st).errCap = st.errCap
      ∧ (streamHandedOver cfg bs st).errPktovf = st.errPktovf
      ∧ ((streamHandedOver cfg bs st).errOutqovf = true → st.errOutqovf = true ∨ st.lacksRoom cfg bs) := by
  unfold streamHandedOver Core.lacksRoom
  split
  · exact ⟨rfl, rfl, .inl⟩
  · exact ⟨rfl, rfl, fun _ => .inr (by omega)⟩

/-- Which sticky bits a framer transition sets, and when (43_framer.md R72, R73; 60_exceptions.md R83).
-/
theorem framerTable_errors (cfg : Config) (k : ℕ) (st : Core) :
    (framerTable cfg k st).errCap = st.errCap
      ∧ ((framerTable cfg k st).errPktovf = true → st.errPktovf = true ∨ st.packetFullAt cfg k)
      ∧ ((framerTable cfg k st).errOutqovf = true → st.errOutqovf = true
          ∨ (st.packetEndsAt cfg k ∧ st.povf = false ∧ st.lacksRoom cfg (finalize cfg st.pkt))) := by
  obtain ⟨h1, h2, h3⟩ := streamHandedOver_errors cfg (finalize cfg st.pkt) st
  unfold framerTable
  split
  · split <;> exact ⟨rfl, .inl, .inl⟩
  · rename_i hfr
    split
    · rename_i he
      unfold packetEnded
      dsimp only
      split
      · exact ⟨rfl, .inl, .inl⟩
      · rename_i hp
        rw [Bool.not_eq_true] at hp
        exact ⟨h1, fun h => .inl (h2 ▸ h),
          fun h => (h3 h).imp_right fun hr => ⟨⟨hfr, he⟩, hp, hr⟩⟩
    · rename_i he
      split
      · rename_i hlen
        have full : st.packetFullAt cfg k := ⟨hfr, by simpa using he, hlen⟩
        unfold packetOverflowed
        split <;> exact ⟨rfl, fun _ => .inr full, .inl⟩
      · exact ⟨rfl, .inl, .inl⟩

/-! ### Steps of the machine -/

/-- A framer row taken under its word (43_framer.md R68; 10_state.md R15). -/
theorem takeRow_eq (ew : EventWord) (k : ℕ) (st : Core) (s : State) :
    takeRow ew k st s = afterFrameWord s ew k st := rfl

/-- STOP (44_control.md R78). -/
theorem stopRun_eq (s : State) :
    stopRun s =
      { s with
        st := { s.st with run := .stopped, fr := .idle, pkt := [], povf := false }
        obs := { s.obs with words := s.obs.words ++ [0xC0#8] } } := rfl

/-- FRAME_STEP from the bin on (43_framer.md R68). -/
theorem frameStep_eq (k : ℕ) (cancel : Bool) (s : State) :
    frameStep k cancel s =
      if cancel then stopRun (afterFrameWord s (frameStepWord s.cfg k s.st) k (framerTable s.cfg k s.st))
      else afterFrameWord s (frameStepWord s.cfg k s.st) k (framerTable s.cfg k s.st) := by
  unfold frameStep
  simp only [frameWord_eq, frameRow_eq _ _ _ _ rfl rfl, takeRow_eq]

/-- What a frame word needs (43_framer.md R68; log 7). -/
theorem frameReady_iff (ew : EventWord) (s : State) :
    frameReady ew s = true ↔ s.atFrame ∧ frameStepWord s.cfg s.args.bin s.st = ew := by
  simp [frameReady, State.atFrame, frameWord_eq, and_assoc]

/-- A frame word executed on its own: its row, or a refusal. -/
theorem frameEvent_next {ew : EventWord} {row : Core → Core} {s t : State}
    (h : frameEvent ew row s = .next t) :
    s.atFrame ∧ frameStepWord s.cfg s.args.bin s.st = ew
      ∧ t = afterFrameWord s ew s.args.bin (row s.st) := by
  unfold frameEvent at h
  split at h
  · rename_i hr
    obtain ⟨h1, h2⟩ := (frameReady_iff ew s).mp hr
    exact ⟨h1, h2, by simpa [takeRow_eq] using h.symm⟩
  · cases h

/-- What a frame word's fields say of the state and the bin (30_encoding.md R46). -/
theorem frameStepWord_eq_frameBits {cfg : Config} {k : ℕ} {st : Core} {full fr hs he : Bool} :
    frameStepWord cfg k st = frameBits full fr hs he ↔
      full = decide (st.fr = .inPkt ∧ st.pkt.length = cfg.pktMax) ∧ fr = decide (st.fr = .inPkt)
        ∧ hs = hsStart cfg k ∧ he = hsEnd cfg k := by
  unfold frameStepWord
  have h : ∀ a b c d a' b' c' d' : Bool,
      frameBits a b c d = frameBits a' b' c' d' ↔ a' = a ∧ b' = b ∧ c' = c ∧ d' = d := by decide
  exact h ..

/-- A frame word that `exec` runs is the framer table's row at the bin of `args` (43_framer.md R68). -/
theorem exec_frameRow_next {i : Instr} {s t : State} (hi : isFrameRow i = true)
    (h : exec i s = .next t) :
    s.atFrame ∧ frameStepWord s.cfg s.args.bin s.st = encode i
      ∧ t = afterFrameWord s (encode i) s.args.bin (framerTable s.cfg s.args.bin s.st) := by
  have key : ∀ {full fr hs he : Bool} {row : Core → Core} {t : State}, (full = true → fr = true) →
      frameEvent (frameBits full fr hs he) row s = .next t →
      (∀ st, row st = frameRow s.cfg (frameBits full fr hs he) s.args.bin st) →
      s.atFrame ∧ frameStepWord s.cfg s.args.bin s.st = frameBits full fr hs he
        ∧ t = afterFrameWord s (frameBits full fr hs he) s.args.bin
            (framerTable s.cfg s.args.bin s.st) := by
    intro full fr hs he row t _ hn hr
    obtain ⟨h1, h2, h3⟩ := frameEvent_next hn
    refine ⟨h1, h2, ?_⟩
    rw [h3, hr, ← h2, frameRow_eq _ _ _ _ rfl rfl]
  cases i with
  | frIdleStart he => exact key (by simp) h fun st => by rw [frameRow_bits _ _ _ _ _ _ _ (by simp)]; rfl
  | frIdleOther he => exact key (by simp) h fun st => by rw [frameRow_bits _ _ _ _ _ _ _ (by simp)]; rfl
  | frPktEnd full hs => exact key (by simp) h fun st => by rw [frameRow_bits _ _ _ _ _ _ _ (by simp)]; rfl
  | frPktAppend hs => exact key (by simp) h fun st => by rw [frameRow_bits _ _ _ _ _ _ _ (by simp)]; rfl
  | frPktFull hs => exact key (by simp) h fun st => by rw [frameRow_bits _ _ _ _ _ _ _ (by simp)]; rfl
  | reset | sample | outByte | outEmpty | capfail | peak | bin2hz | quant | hsStart | hsEnd | classify
  | evenidx | assemble | finalize | dispatch | stop => simp [isFrameRow] at hi

/-- SAMPLE: ignored, gathered, or the frame's last (40_spectral.md R51). -/
theorem acceptSample_cases (d : Sample) (cancel : Bool) (s : State) :
    (s.st.run ≠ .run ∧ acceptSample d cancel s = s)
      ∨ (s.st.run = .run ∧ s.st.fbuf.length + 1 < s.cfg.frameN
        ∧ acceptSample d cancel s = logWord 0x20#8 (setCore (fbufAppend d s.st) s))
      ∨ (s.st.run = .run ∧ s.cfg.frameN ≤ s.st.fbuf.length + 1
        ∧ acceptSample d cancel s
          = frameStep (peakBin s.cfg (s.st.fbuf ++ [d])) cancel
              (logWord 0x20#8 (setCore (fbufClear s.st) s))) := by
  unfold acceptSample
  by_cases h : s.st.run = .run
  · by_cases h2 : s.st.fbuf.length + 1 < s.cfg.frameN
    · exact .inr (.inl ⟨h, h2, by simp [h, h2]⟩)
    · exact .inr (.inr ⟨h, by omega, by simp [h, h2]⟩)
  · exact .inl ⟨h, by simp [h]⟩

/-- The consumer takes a beat (44_control.md R80, R81). -/
theorem takeBeat_eq (b : Beat) (s : State) :
    takeBeat b s =
      { s with
        st := { s.st with outq := s.st.outq.tail }
        obs :=
          { s.obs with words := s.obs.words ++ [beatWord b], beats := s.obs.beats ++ [b] } } := rfl

/-- OUT_BYTE takes a byte beat with its `last`, or refuses. -/
theorem execOutByte_next {last : Bool} {s t : State} (h : execOutByte last s = .next t) :
    ∃ b q, s.st.outq = .byte b last :: q ∧ t = takeBeat (.byte b last) s := by
  unfold execOutByte at h
  split at h
  · rename_i b l q hq
    split at h
    · rename_i hl
      subst hl
      exact ⟨b, q, hq, by simpa using h.symm⟩
    · cases h
  · cases h

/-- OUT_EMPTY takes the marker, or refuses. -/
theorem execOutEmpty_next {s t : State} (h : execOutEmpty s = .next t) :
    ∃ q, s.st.outq = .empty :: q ∧ t = takeBeat .empty s := by
  unfold execOutEmpty at h
  split at h
  · rename_i q hq
    exact ⟨q, hq, by simpa using h.symm⟩
  · cases h

/-- STOP runs at a frame boundary of a running core with `cancel` high, or refuses. -/
theorem execStop_next {s t : State} (h : execStop s = .next t) :
    s.st.run = .run ∧ s.st.fbuf = [] ∧ s.ports.cancel = true ∧ t = stopRun s := by
  unfold execStop at h
  split at h
  · rename_i hr
    simp only [stopReady, Bool.and_eq_true, decide_eq_true_eq] at hr
    exact ⟨hr.1.1, hr.1.2, hr.2, by simpa using h.symm⟩
  · cases h

/-- What one step can do: begin the next clock edge, or run the operation of the first pending word. -/
theorem step_next {s t : State} (h : step s = .next t) :
    (s.pending = [] ∧ t = nextCycle s)
      ∨ ∃ w ws i, s.pending = w :: ws ∧ decode w = .ok i ∧ mayTake i s = true
          ∧ exec i { s with pending := ws } = .next t := by
  unfold step at h
  split at h
  · rename_i hp
    exact .inl ⟨hp, by simpa using h.symm⟩
  · rename_i w ws hp
    split at h
    · cases h
    · rename_i i hd
      split at h
      · rename_i hm
        exact .inr ⟨w, ws, i, hp, hd, hm, h⟩
      · cases h

/-- The next clock edge: the next ports the environment drives, or none asserted. -/
theorem nextCycle_eq (s : State) :
    nextCycle s = startCycle (s.inputs.headD Ports.idle) { s with inputs := s.inputs.tail } := by
  unfold nextCycle
  cases h : s.inputs with
  | nil => cases s; simp_all
  | cons p ps => rfl

/-- The placed word is the next one taken (log 9). -/
theorem placeWord_pending (w : EventWord) (s : State) : (placeWord w s).pending.head? = some w := rfl

end Sys2Proof.Machine
end

