-- ==== Sys2Proof/Laws/Separation.lean ====
section
/-!
SUPPORT. An integer combination of the cosines of multiples of `2*pi/N` that is not 0 is bounded away
from 0, because twice it is an algebraic integer of the N-th cyclotomic field and its norm is an
integer. This is what lets Machine/Peak.lean decide a comparison of exact real powers (log 4).
-/
namespace Sys2Proof.Machine

open Complex in
/-- A root of unity plus its inverse is twice a cosine. -/
theorem exp_add_exp_pow (N e : ℕ) (hN : 0 < N) :
    exp (2 * Real.pi * I / N) ^ e + exp (2 * Real.pi * I / N) ^ (e * (N - 1))
      = ((2 * Real.cos (2 * Real.pi * e / N) : ℝ) : ℂ) := by
  have hN' : (N : ℂ) ≠ 0 := by exact_mod_cast hN.ne'
  have h1 : exp (2 * Real.pi * I / N) ^ e = exp ((2 * Real.pi * e / N : ℂ) * I) := by
    rw [← exp_nat_mul]; congr 1; field_simp
  have h2 : exp (2 * Real.pi * I / N) ^ (e * (N - 1)) = exp (-(2 * Real.pi * e / N : ℂ) * I) := by
    rw [← exp_nat_mul]
    have h3 : ((e * (N - 1) : ℕ) : ℂ) * (2 * Real.pi * I / N)
        = -(2 * Real.pi * e / N : ℂ) * I + e * (2 * Real.pi * I) := by
      push_cast [Nat.cast_sub hN]
      field_simp; ring
    rw [h3, exp_add, exp_nat_mul_two_pi_mul_I, mul_one]
  rw [h1, h2]
  push_cast
  rw [two_mul (Complex.cos _)]
  have := Complex.two_cos (x := (2 * Real.pi * e / N : ℂ))
  rw [← two_mul, this]

/-- The separation bound, over a given cyclotomic field. -/
theorem cos_combination_separated_in (K : Type) [Field K] [NumberField K] {ι : Type} (s : Finset ι) (c : ι → ℤ) (e : ι → ℕ) {N : ℕ}
    [NeZero N] [IsCyclotomicExtension {N} ℚ K] (m : ℕ) (hm : ∑ i ∈ s, |(c i : ℝ)| ≤ m)
    (hS : ∑ i ∈ s, (c i : ℝ) * Real.cos (2 * Real.pi * e i / N) ≠ 0) :
    1 ≤ |∑ i ∈ s, (c i : ℝ) * Real.cos (2 * Real.pi * e i / N)| * (2 * m) ^ N := by
  classical
  have hN : 0 < N := Nat.pos_of_ne_zero (NeZero.ne N)
  set S := ∑ i ∈ s, (c i : ℝ) * Real.cos (2 * Real.pi * e i / N) with hSdef
  set ζ : K := IsCyclotomicExtension.zeta N ℚ K with hζdef
  have hζ : IsPrimitiveRoot ζ N := IsCyclotomicExtension.zeta_spec N ℚ K
  have hirr : Irreducible (Polynomial.cyclotomic N ℚ) := Polynomial.cyclotomic.irreducible_rat hN
  set a : K := ∑ i ∈ s, (c i : K) * (ζ ^ e i + ζ ^ (e i * (N - 1))) with ha
  have hint : IsIntegral ℤ a := by
    refine IsIntegral.sum _ fun i _ => ?_
    have hz : IsIntegral ℤ ζ := hζ.isIntegral hN
    exact (isIntegral_algebraMap (R := ℤ) (x := c i)).mul ((hz.pow _).add (hz.pow _))
  have happ : ∀ σ : K →ₐ[ℚ] ℂ, σ a = ∑ i ∈ s, (c i : ℂ) * (σ ζ ^ e i + σ ζ ^ (e i * (N - 1))) := by
    intro σ
    simp only [ha, map_sum, map_mul, map_add, map_pow, map_intCast]
  have hbound : ∀ σ : K →ₐ[ℚ] ℂ, ‖σ a‖ ≤ 2 * m := by
    intro σ
    have h1 : ‖σ ζ‖ = 1 := (hζ.map_of_injective σ.injective).norm'_eq_one hN.ne'
    rw [happ]
    calc ‖∑ i ∈ s, (c i : ℂ) * (σ ζ ^ e i + σ ζ ^ (e i * (N - 1)))‖
        ≤ ∑ i ∈ s, ‖(c i : ℂ) * (σ ζ ^ e i + σ ζ ^ (e i * (N - 1)))‖ := norm_sum_le _ _
      _ ≤ ∑ i ∈ s, 2 * |(c i : ℝ)| := by
          refine Finset.sum_le_sum fun i _ => ?_
          rw [norm_mul, Complex.norm_intCast]
          have h2 : ‖σ ζ ^ e i + σ ζ ^ (e i * (N - 1))‖ ≤ 2 := by
            refine le_trans (norm_add_le _ _) ?_
            rw [norm_pow, norm_pow, h1, one_pow, one_pow]; norm_num
          nlinarith [abs_nonneg (c i : ℝ)]
      _ = 2 * ∑ i ∈ s, |(c i : ℝ)| := by rw [Finset.mul_sum]
      _ ≤ 2 * m := by linarith
  obtain ⟨σ₀, hσ₀⟩ : ∃ σ : K →ₐ[ℚ] ℂ, σ ζ = Complex.exp (2 * Real.pi * Complex.I / N) := by
    have hp : Complex.exp (2 * Real.pi * Complex.I / N) ∈ primitiveRoots N ℂ :=
      (mem_primitiveRoots hN).mpr (Complex.isPrimitiveRoot_exp N hN.ne')
    refine ⟨(hζ.embeddingsEquivPrimitiveRoots ℂ hirr).symm ⟨_, hp⟩, ?_⟩
    rw [← hζ.embeddingsEquivPrimitiveRoots_apply_coe ℂ hirr, Equiv.apply_symm_apply]
  have hσa : σ₀ a = ((2 * S : ℝ) : ℂ) := by
    rw [happ, hσ₀]
    simp_rw [exp_add_exp_pow N _ hN]
    rw [hSdef, Finset.mul_sum]
    push_cast
    exact Finset.sum_congr rfl fun i _ => by ring
  have ha0 : a ≠ 0 := by
    intro h
    rw [h, map_zero] at hσa
    have h2 : (2 * S : ℝ) = 0 := by exact_mod_cast hσa.symm
    exact hS (by linarith)
  have hnorm : (1 : ℝ) ≤ ‖(algebraMap ℚ ℂ) (Algebra.norm ℚ a)‖ := by
    obtain ⟨z, hz⟩ := IsIntegrallyClosed.isIntegral_iff.mp (Algebra.isIntegral_norm ℚ hint)
    have hz0 : z ≠ 0 := by
      rintro rfl
      rw [map_zero] at hz
      exact (Algebra.norm_ne_zero_iff.mpr ha0) hz.symm
    rw [← hz]
    have : (algebraMap ℚ ℂ) ((algebraMap ℤ ℚ) z) = (z : ℂ) := by simp
    rw [this, Complex.norm_intCast]
    exact_mod_cast Int.one_le_abs hz0
  rw [Algebra.norm_eq_prod_embeddings ℚ ℂ a, norm_prod] at hnorm
  have hm1 : (1 : ℝ) ≤ m := by
    by_contra h
    have hm0 : m = 0 := by
      have : m < 1 := by exact_mod_cast not_le.mp h
      omega
    subst hm0
    have h3 := hbound σ₀
    rw [hσa, Complex.norm_real, Real.norm_eq_abs] at h3
    simp at h3
    exact hS (abs_eq_zero.mp (le_antisymm (by linarith) (abs_nonneg S)))
  have hcard : Fintype.card (K →ₐ[ℚ] ℂ) ≤ N := by
    rw [AlgHom.card ℚ K ℂ, IsCyclotomicExtension.Rat.finrank N K]
    exact Nat.totient_le N
  have hpos : 0 < Fintype.card (K →ₐ[ℚ] ℂ) := Fintype.card_pos_iff.mpr ⟨σ₀⟩
  rw [← Finset.mul_prod_erase Finset.univ _ (Finset.mem_univ σ₀)] at hnorm
  have hrest : ∏ σ ∈ Finset.univ.erase σ₀, ‖σ a‖ ≤ (2 * (m : ℝ)) ^ (N - 1) := by
    calc ∏ σ ∈ Finset.univ.erase σ₀, ‖σ a‖ ≤ ∏ _σ ∈ Finset.univ.erase σ₀, (2 * (m : ℝ)) :=
          Finset.prod_le_prod (fun _ _ => norm_nonneg _) fun σ _ => hbound σ
      _ = (2 * (m : ℝ)) ^ (Fintype.card (K →ₐ[ℚ] ℂ) - 1) := by
          rw [Finset.prod_const, Finset.card_erase_of_mem (Finset.mem_univ _), Finset.card_univ]
      _ ≤ (2 * (m : ℝ)) ^ (N - 1) := pow_le_pow_right₀ (by linarith) (by omega)
  rw [hσa, Complex.norm_real, Real.norm_eq_abs, abs_mul, abs_two] at hnorm
  have hpow : (2 * (m : ℝ)) ^ N = (2 * m) ^ (N - 1) * (2 * m) := by
    rw [← pow_succ]; congr 1; omega
  have hP : (0 : ℝ) ≤ (2 * (m : ℝ)) ^ (N - 1) := by positivity
  have hA : 0 ≤ |S| := abs_nonneg S
  calc (1 : ℝ) ≤ 2 * |S| * ∏ σ ∈ Finset.univ.erase σ₀, ‖σ a‖ := hnorm
    _ ≤ 2 * |S| * (2 * (m : ℝ)) ^ (N - 1) := by gcongr
    _ ≤ |S| * (2 * (m : ℝ)) ^ N := by
        rw [hpow]
        nlinarith [mul_nonneg hA hP]

/-- The separation bound: a combination of cosines of multiples of `2*pi/N` with integer coefficients of
total magnitude at most `m` is 0 or at least `(2*m)^(-N)` in magnitude. -/
theorem cos_combination_separated {ι : Type} (s : Finset ι) (c : ι → ℤ) (e : ι → ℕ) {N : ℕ}
    (hN : 0 < N) (m : ℕ) (hm : ∑ i ∈ s, |(c i : ℝ)| ≤ m)
    (hS : ∑ i ∈ s, (c i : ℝ) * Real.cos (2 * Real.pi * e i / N) ≠ 0) :
    1 ≤ |∑ i ∈ s, (c i : ℝ) * Real.cos (2 * Real.pi * e i / N)| * (2 * m) ^ N := by
  have : NeZero N := ⟨hN.ne'⟩
  have h : @IsCyclotomicExtension {N} ℚ (CyclotomicField N ℚ) _ _ (CyclotomicField.algebra N ℚ) :=
    inferInstance
  have heq : CyclotomicField.algebra N ℚ = (DivisionRing.toRatAlgebra : Algebra ℚ (CyclotomicField N ℚ)) :=
    Subsingleton.elim _ _
  rw [heq] at h
  exact cos_combination_separated_in (CyclotomicField N ℚ) s c e m hm hS

end Sys2Proof.Machine
end

