-- ==== Sys2Proof/Laws/Trig.lean ====
section
/-!
SUPPORT. The fixed-point cosines of Machine/Trig.lean: `cosFix p N j` is within `cosErr p` of
`2^p * cos(2*pi*j/N)` (log 4).
-/
namespace Sys2Proof.Machine

/-- `a` is within `e` of `2^p * r`. -/
def Near (p : ℕ) (e : ℝ) (a : ℤ) (r : ℝ) : Prop := |(a : ℝ) - 2 ^ p * r| ≤ e

theorem Near.mono {p : ℕ} {e e' : ℝ} {a : ℤ} {r : ℝ} (h : Near p e a r) (he : e ≤ e') :
    Near p e' a r := le_trans h he

theorem Near.add {p : ℕ} {e f : ℝ} {a b : ℤ} {r s : ℝ} (h : Near p e a r) (g : Near p f b s) :
    Near p (e + f) (a + b) (r + s) := by
  unfold Near at *
  have hs : ((a + b : ℤ) : ℝ) - 2 ^ p * (r + s) = (a - 2 ^ p * r) + (b - 2 ^ p * s) := by
    push_cast; ring
  rw [hs]
  exact le_trans (abs_add_le _ _) (add_le_add h g)

theorem Near.neg {p : ℕ} {e : ℝ} {a : ℤ} {r : ℝ} (h : Near p e a r) : Near p e (-a) (-r) := by
  unfold Near at *
  have hs : ((-a : ℤ) : ℝ) - 2 ^ p * (-r) = -(a - 2 ^ p * r) := by push_cast; ring
  rw [hs, abs_neg]; exact h

/-- Rounding a quotient down moves it by at most 1. -/
theorem floor_div_near (a : ℤ) (n : ℕ) (hn : 0 < n) : |((a / (n : ℤ) : ℤ) : ℝ) - (a : ℝ) / n| ≤ 1 := by
  have hn' : (0 : ℝ) < n := by exact_mod_cast hn
  have hz : (0 : ℤ) < n := by exact_mod_cast hn
  have h1 : (a / (n : ℤ)) * n ≤ a := Int.ediv_mul_le a (ne_of_gt hz)
  have h2 : a < (a / (n : ℤ)) * n + n := by
    have := Int.lt_ediv_add_one_mul_self a hz
    linarith
  have h1' : ((a / (n : ℤ) : ℤ) : ℝ) * n ≤ a := by exact_mod_cast h1
  have h2' : (a : ℝ) < ((a / (n : ℤ) : ℤ) : ℝ) * n + n := by exact_mod_cast h2
  rw [abs_le]
  constructor
  · have : (a : ℝ) / n ≤ ((a / (n : ℤ) : ℤ) : ℝ) + 1 := by
      rw [div_le_iff₀ hn']; linarith
    linarith
  · have : ((a / (n : ℤ) : ℤ) : ℝ) ≤ (a : ℝ) / n := by
      rw [le_div_iff₀ hn']; exact h1'
    linarith

theorem Near.floorDiv {p : ℕ} {e : ℝ} {a : ℤ} {r : ℝ} (h : Near p e a r) (n : ℕ) (hn : 0 < n) :
    Near p (e / n + 1) (a / (n : ℤ)) (r / n) := by
  unfold Near at *
  have hn' : (0 : ℝ) < n := by exact_mod_cast hn
  have hs : ((a / (n : ℤ) : ℤ) : ℝ) - 2 ^ p * (r / n)
      = (((a / (n : ℤ) : ℤ) : ℝ) - (a : ℝ) / n) + (a - 2 ^ p * r) / n := by field_simp; ring
  rw [hs]
  refine le_trans (abs_add_le _ _) ?_
  rw [abs_div, abs_of_pos hn', add_comm]
  exact add_le_add (by gcongr) (floor_div_near a n hn)

/-- The fixed-point product of two values of magnitude at most 1. -/
theorem Near.mul {p : ℕ} {e f : ℝ} {a b : ℤ} {r s : ℝ} (h : Near p e a r) (g : Near p f b s)
    (hr : |r| ≤ 1) (hs : |s| ≤ 1) :
    Near p (e * (1 + f / 2 ^ p) + f + 1) (a * b / 2 ^ p) (r * s) := by
  unfold Near at *
  have hp : (0 : ℝ) < 2 ^ p := by positivity
  have key : |(a : ℝ) * b / 2 ^ p - 2 ^ p * (r * s)| ≤ e * (1 + f / 2 ^ p) + f := by
    have hb : |(b : ℝ)| ≤ 2 ^ p + f := by
      have h1 : (b : ℝ) = (b - 2 ^ p * s) + 2 ^ p * s := by ring
      rw [h1]
      refine le_trans (abs_add_le _ _) ?_
      have h2 : |(2 : ℝ) ^ p * s| ≤ 2 ^ p := by
        rw [abs_mul, abs_of_pos hp]; exact mul_le_of_le_one_right hp.le hs
      linarith
    have h1 : (a : ℝ) * b / 2 ^ p - 2 ^ p * (r * s)
        = (a - 2 ^ p * r) * (b / 2 ^ p) + r * (b - 2 ^ p * s) := by field_simp; ring
    rw [h1]
    refine le_trans (abs_add_le _ _) ?_
    rw [abs_mul, abs_mul, abs_div, abs_of_pos hp]
    have h2 : |(b : ℝ)| / 2 ^ p ≤ 1 + f / 2 ^ p := by
      rw [div_le_iff₀ hp]; field_simp; linarith
    have h3 : |(a : ℝ) - 2 ^ p * r| * (|(b : ℝ)| / 2 ^ p) ≤ e * (1 + f / 2 ^ p) :=
      mul_le_mul h h2 (by positivity) (le_trans (abs_nonneg _) h)
    have h4 : |r| * |(b : ℝ) - 2 ^ p * s| ≤ 1 * f :=
      mul_le_mul hr g (abs_nonneg _) (by norm_num)
    linarith
  have hf := floor_div_near (a * b) (2 ^ p) (by positivity)
  push_cast at hf
  have h5 : ((a * b / 2 ^ p : ℤ) : ℝ) - 2 ^ p * (r * s)
      = (((a * b / 2 ^ p : ℤ) : ℝ) - (a : ℝ) * b / 2 ^ p) + ((a : ℝ) * b / 2 ^ p - 2 ^ p * (r * s)) := by
    ring
  rw [h5]
  refine le_trans (abs_add_le _ _) ?_
  linarith

/-- The tail of a series whose terms at least halve is at most twice its first term. -/
theorem tail_le_two_mul {f : ℕ → ℝ} {s : ℝ} (hs : HasSum f s) (hf : ∀ k, |f (k + 1)| ≤ |f k| / 2)
    (K : ℕ) : |s - ∑ k ∈ Finset.range K, f k| ≤ 2 * |f K| := by
  have h1 : HasSum (fun k => f (k + K)) (s - ∑ k ∈ Finset.range K, f k) :=
    (hasSum_nat_add_iff' K).mpr hs
  have h2 : ∀ k, |f (k + K)| ≤ |f K| * (1 / 2) ^ k := by
    intro k
    induction k with
    | zero => simp
    | succ k ih =>
      have := hf (k + K)
      rw [show k + 1 + K = k + K + 1 by ring]
      calc |f (k + K + 1)| ≤ |f (k + K)| / 2 := this
        _ ≤ |f K| * (1 / 2) ^ k / 2 := by linarith
        _ = |f K| * (1 / 2) ^ (k + 1) := by ring
  have h3 : HasSum (fun k : ℕ => |f K| * (1 / 2 : ℝ) ^ k) (|f K| * 2) :=
    (hasSum_geometric_two).mul_left _
  have h4 := h1.norm_le_of_bounded h3 h2
  rw [Real.norm_eq_abs] at h4
  linarith

/-- The sign of an alternating series' term, as Machine/Trig.lean writes it. -/
theorem alternate_eq (k : ℕ) (t : ℤ) : (if k % 2 = 0 then t else -t) = (-1) ^ k * t := by
  split
  · rename_i h
    rw [(Nat.even_iff.mpr h).neg_one_pow, one_mul]
  · rename_i h
    rw [(Nat.odd_iff.mpr (by omega)).neg_one_pow]; ring

/-- `atanInvFix` is the partial sum of the series, each term rounded down. -/
theorem atanInvFix_near_sum (p q : ℕ) (hq : 0 < q) (K : ℕ) :
    Near p K (atanInvFix p q K)
      (∑ k ∈ Finset.range K, (-1) ^ k * ((q : ℝ)⁻¹) ^ (2 * k + 1) / ((2 * k + 1 : ℕ) : ℝ)) := by
  induction K with
  | zero => simp [Near, atanInvFix]
  | succ K ih =>
    rw [Finset.sum_range_succ]
    have hd : 0 < (2 * K + 1) * q ^ (2 * K + 1) := by positivity
    have h1 : Near p 1 ((2 ^ p / ((2 * K + 1) * q ^ (2 * K + 1)) : ℕ) : ℤ)
        (((q : ℝ)⁻¹) ^ (2 * K + 1) / ((2 * K + 1 : ℕ) : ℝ)) := by
      have := floor_div_near (2 ^ p) _ hd
      unfold Near
      have hq' : (q : ℝ) ≠ 0 := by positivity
      have h2 : (2 : ℝ) ^ p * (((q : ℝ)⁻¹) ^ (2 * K + 1) / ((2 * K + 1 : ℕ) : ℝ))
          = ((2 ^ p : ℤ) : ℝ) / (((2 * K + 1) * q ^ (2 * K + 1) : ℕ) : ℝ) := by
        push_cast; rw [inv_pow]; field_simp
      rw [h2]
      have h3 : ((((2 ^ p / ((2 * K + 1) * q ^ (2 * K + 1)) : ℕ) : ℤ)) : ℝ)
          = (((2 ^ p : ℤ) / (((2 * K + 1) * q ^ (2 * K + 1) : ℕ) : ℤ) : ℤ) : ℝ) := by
        push_cast; rfl
      rw [h3]; exact this
    have h2 : Near p 1 ((-1) ^ K * ((2 ^ p / ((2 * K + 1) * q ^ (2 * K + 1)) : ℕ) : ℤ))
        ((-1) ^ K * ((q : ℝ)⁻¹) ^ (2 * K + 1) / ((2 * K + 1 : ℕ) : ℝ)) := by
      rw [mul_div_assoc]
      rcases Nat.even_or_odd K with h | h
      · rw [h.neg_one_pow, h.neg_one_pow, one_mul, one_mul]; exact h1
      · rw [h.neg_one_pow, h.neg_one_pow, neg_one_mul, neg_one_mul]; exact h1.neg
    have h3 := ih.add h2
    simp only [atanInvFix, alternate_eq]
    push_cast at h3 ⊢
    exact h3

/-- `atanInvFix` against the arctangent. -/
theorem atanInvFix_near (p q : ℕ) (hq : 5 ≤ q) :
    Near p (p / 4 + 2) (atanInvFix p q (p / 4 + 1)) (Real.arctan ((q : ℝ)⁻¹)) := by
  set K := p / 4 + 1 with hK
  have hq0 : (0 : ℝ) < q := by exact_mod_cast (by omega : 0 < q)
  have hq5 : (5 : ℝ) ≤ q := by exact_mod_cast hq
  have hx : (q : ℝ)⁻¹ ≤ 1 / 5 := by
    have := inv_anti₀ (by norm_num) hq5
    linarith
  have hx0 : 0 < (q : ℝ)⁻¹ := by positivity
  have hs := Real.hasSum_arctan (x := (q : ℝ)⁻¹) (by
    rw [Real.norm_eq_abs, abs_of_pos hx0]; linarith)
  have habs : ∀ k : ℕ, |(-1 : ℝ) ^ k * ((q : ℝ)⁻¹) ^ (2 * k + 1) / ((2 * k + 1 : ℕ) : ℝ)|
      = ((q : ℝ)⁻¹) ^ (2 * k + 1) / ((2 * k + 1 : ℕ) : ℝ) := by
    intro k
    rw [abs_div, abs_mul, abs_pow, abs_neg, abs_one, one_pow, one_mul, abs_of_pos (by positivity),
      abs_of_pos (by positivity)]
  have hf : ∀ k : ℕ, |(-1 : ℝ) ^ (k + 1) * ((q : ℝ)⁻¹) ^ (2 * (k + 1) + 1) / ((2 * (k + 1) + 1 : ℕ) : ℝ)|
      ≤ |(-1 : ℝ) ^ k * ((q : ℝ)⁻¹) ^ (2 * k + 1) / ((2 * k + 1 : ℕ) : ℝ)| / 2 := by
    intro k
    rw [habs, habs]
    have h1 : ((q : ℝ)⁻¹) ^ (2 * (k + 1) + 1) ≤ ((q : ℝ)⁻¹) ^ (2 * k + 1) / 2 := by
      have h2 : ((q : ℝ)⁻¹) ^ (2 * (k + 1) + 1) = ((q : ℝ)⁻¹) ^ (2 * k + 1) * ((q : ℝ)⁻¹) ^ 2 := by ring
      have h3 : ((q : ℝ)⁻¹) ^ 2 ≤ 1 / 2 := by nlinarith
      rw [h2]
      have : 0 < ((q : ℝ)⁻¹) ^ (2 * k + 1) := by positivity
      nlinarith
    calc ((q : ℝ)⁻¹) ^ (2 * (k + 1) + 1) / ((2 * (k + 1) + 1 : ℕ) : ℝ)
        ≤ (((q : ℝ)⁻¹) ^ (2 * k + 1) / 2) / ((2 * (k + 1) + 1 : ℕ) : ℝ) := by gcongr
      _ ≤ (((q : ℝ)⁻¹) ^ (2 * k + 1) / 2) / ((2 * k + 1 : ℕ) : ℝ) := by
          gcongr; omega
      _ = _ := by ring
  have ht := tail_le_two_mul hs hf K
  rw [habs] at ht
  have hn := atanInvFix_near_sum p q (by omega) K
  have hpow : (2 : ℝ) ^ p * (2 * (((q : ℝ)⁻¹) ^ (2 * K + 1) / ((2 * K + 1 : ℕ) : ℝ))) ≤ 1 := by
    have h1 : ((q : ℝ)⁻¹) ^ (2 * K + 1) ≤ ((2 : ℝ)⁻¹) ^ (4 * K + 2) := by
      calc ((q : ℝ)⁻¹) ^ (2 * K + 1) ≤ ((4 : ℝ)⁻¹) ^ (2 * K + 1) := by
            gcongr; linarith
        _ = ((2 : ℝ)⁻¹) ^ (4 * K + 2) := by
            rw [show (4 : ℝ)⁻¹ = (2⁻¹) ^ 2 by norm_num, ← pow_mul]; ring_nf
    have h2 : ((2 : ℝ)⁻¹) ^ (4 * K + 2) ≤ ((2 : ℝ)⁻¹) ^ (p + 1) :=
      pow_le_pow_of_le_one (by norm_num) (by norm_num) (by omega)
    have h3 : ((q : ℝ)⁻¹) ^ (2 * K + 1) / ((2 * K + 1 : ℕ) : ℝ) ≤ ((2 : ℝ)⁻¹) ^ (p + 1) := by
      refine le_trans (div_le_self (by positivity) ?_) (le_trans h1 h2)
      push_cast; linarith [Nat.cast_nonneg (α := ℝ) K]
    calc (2 : ℝ) ^ p * (2 * (((q : ℝ)⁻¹) ^ (2 * K + 1) / ((2 * K + 1 : ℕ) : ℝ)))
        ≤ (2 : ℝ) ^ p * (2 * ((2 : ℝ)⁻¹) ^ (p + 1)) := by gcongr
      _ = 1 := by rw [inv_pow, pow_succ]; field_simp
  unfold Near at hn ⊢
  set S := ∑ k ∈ Finset.range K, (-1 : ℝ) ^ k * ((q : ℝ)⁻¹) ^ (2 * k + 1) / ((2 * k + 1 : ℕ) : ℝ)
  have h5 : ((atanInvFix p q K : ℤ) : ℝ) - 2 ^ p * Real.arctan ((q : ℝ)⁻¹)
      = ((atanInvFix p q K : ℤ) - 2 ^ p * S) - 2 ^ p * (Real.arctan ((q : ℝ)⁻¹) - S) := by ring
  rw [h5]
  refine le_trans (abs_sub _ _) ?_
  rw [abs_mul, abs_of_pos (by positivity : (0 : ℝ) < 2 ^ p)]
  have h6 : (2 : ℝ) ^ p * |Real.arctan ((q : ℝ)⁻¹) - S| ≤ 1 :=
    le_trans (by gcongr) hpow
  have h7 : (K : ℝ) ≤ p / 4 + 1 := by
    have : 4 * K ≤ p + 4 := by omega
    have : (4 : ℝ) * K ≤ p + 4 := by exact_mod_cast this
    linarith
  linarith

theorem piFix_near (p : ℕ) : Near p (5 * p + 40) (piFix p) Real.pi := by
  have h5 := atanInvFix_near p 5 (by norm_num)
  have h239 := atanInvFix_near p 239 (by norm_num)
  have hpi : Real.pi = 4 * (4 * Real.arctan ((5 : ℕ) : ℝ)⁻¹ - Real.arctan ((239 : ℕ) : ℝ)⁻¹) := by
    have := Real.four_mul_arctan_inv_5_sub_arctan_inv_239
    push_cast; linarith
  unfold Near at *
  rw [abs_le] at *
  rw [hpi, piFix]
  push_cast at *
  constructor <;> nlinarith [h5.1, h5.2, h239.1, h239.2]

/-- The error bound is small beside the scale. -/
theorem cosErr_small {p : ℕ} (hp : 64 ≤ p) : 2 * cosErr p ≤ 2 ^ p := by
  induction p, hp using Nat.le_induction with
  | base => norm_num [cosErr]
  | succ n hn ih =>
    unfold cosErr at *
    have h : 2 ^ (n + 1) = 2 ^ n * 2 := pow_succ 2 n
    rw [h]
    nlinarith

theorem cosErr_small_real {p : ℕ} (hp : 64 ≤ p) : 4000 * ((p : ℝ) + 2) ^ 2 ≤ 2 ^ p := by
  have := cosErr_small hp
  unfold cosErr at this
  have h : ((2 * (2000 * (p + 2) ^ 2) : ℕ) : ℝ) ≤ ((2 ^ p : ℕ) : ℝ) := by exact_mod_cast this
  push_cast at h
  linarith

/-- The angle of `cosFix`, an eighth of `2*pi*j/N`. -/
theorem angle_near (p N j : ℕ) (hj : j < N) :
    Near p (2 * p + 11) (piFix p * j / (4 * N : ℕ)) (Real.pi * j / (4 * N)) := by
  have hN : 0 < N := by omega
  have h := piFix_near p
  have hjN : (j : ℝ) ≤ N := by exact_mod_cast hj.le
  have hN' : (0 : ℝ) < N := by exact_mod_cast hN
  have h1 : Near p ((5 * p + 40) * j) (piFix p * j) (Real.pi * j) := by
    unfold Near at *
    have h2 : ((piFix p * j : ℤ) : ℝ) - 2 ^ p * (Real.pi * j) = (piFix p - 2 ^ p * Real.pi) * j := by
      push_cast; ring
    rw [h2, abs_mul, Nat.abs_cast]
    gcongr
  have h3 := h1.floorDiv (4 * N) (by omega)
  push_cast at h3 ⊢
  refine h3.mono ?_
  have : (5 * (p : ℝ) + 40) * j / (4 * N) ≤ (5 * p + 40) / 4 := by
    rw [div_le_div_iff₀ (by positivity) (by norm_num)]
    have : (0 : ℝ) ≤ 5 * p + 40 := by positivity
    nlinarith
  have hp : (0 : ℝ) ≤ p := by positivity
  linarith

/-- The terms of the cosine series. -/
noncomputable def cosTerm (x : ℝ) (k : ℕ) : ℝ := (-1) ^ k * x ^ (2 * k) / ((2 * k).factorial : ℝ)

theorem cosTerm_succ (x : ℝ) (k : ℕ) :
    cosTerm x (k + 1) = -(cosTerm x k * x ^ 2 / (((2 * k + 1) * (2 * k + 2) : ℕ) : ℝ)) := by
  unfold cosTerm
  rw [show 2 * (k + 1) = 2 * k + 1 + 1 by ring, Nat.factorial_succ, Nat.factorial_succ]
  push_cast
  have : ((2 * k).factorial : ℝ) ≠ 0 := by positivity
  field_simp
  ring

theorem cosTerm_abs_le {x : ℝ} (hx : |x| ≤ 1) (k : ℕ) : |cosTerm x k| ≤ 1 := by
  unfold cosTerm
  rw [abs_div, abs_mul, abs_pow, abs_neg, abs_one, one_pow, one_mul, abs_pow, Nat.abs_cast]
  have h1 : |x| ^ (2 * k) ≤ 1 := pow_le_one₀ (abs_nonneg _) hx
  have h2 : (1 : ℝ) ≤ ((2 * k).factorial : ℝ) := by exact_mod_cast Nat.factorial_pos _
  rw [div_le_one (by linarith)]
  linarith

/-- The loop of `cosSmall` keeps every term within one bound, and sums them. -/
theorem cosLoop_near {p : ℕ} {y : ℤ} {x ey : ℝ} (hx : |x| ≤ 1) (hy : Near p ey y (x ^ 2))
    (hey : 0 ≤ ey) (hsmall : 2 * ey ≤ 2 ^ p) (f k : ℕ) (t acc : ℤ)
    (ht : Near p (2 * ey + 6) t (cosTerm x k))
    (hacc : Near p (k * (2 * ey + 6)) acc (∑ i ∈ Finset.range k, cosTerm x i)) :
    Near p ((k + f : ℕ) * (2 * ey + 6)) (cosLoop p y f k t acc)
      (∑ i ∈ Finset.range (k + f), cosTerm x i) := by
  induction f generalizing k t acc with
  | zero => simpa [cosLoop] using hacc
  | succ f ih =>
    have h := ih (k + 1) (-(t * y / 2 ^ p / ((2 * k + 1) * (2 * k + 2) : ℕ))) (acc + t) ?_ ?_
    · rw [show k + (f + 1) = k + 1 + f by ring]
      exact h
    · rw [cosTerm_succ]
      have hx2 : |x ^ 2| ≤ 1 := by rw [abs_pow]; exact pow_le_one₀ (abs_nonneg _) hx
      have h1 := (ht.mul hy (cosTerm_abs_le hx k) hx2).floorDiv ((2 * k + 1) * (2 * k + 2)) (by positivity)
      refine h1.neg.mono ?_
      have h2 : ey / 2 ^ p ≤ 1 / 2 := by
        rw [div_le_div_iff₀ (by positivity) (by norm_num)]; linarith
      have h3 : (2 : ℝ) ≤ (((2 * k + 1) * (2 * k + 2) : ℕ) : ℝ) := by
        have : 2 ≤ (2 * k + 1) * (2 * k + 2) := by nlinarith
        exact_mod_cast this
      have h4 : (2 * ey + 6) * (1 + ey / 2 ^ p) + ey + 1 ≤ (2 * ey + 6) * (3 / 2) + ey + 1 := by
        have : (2 * ey + 6) * (1 + ey / 2 ^ p) ≤ (2 * ey + 6) * (3 / 2) := by
          apply mul_le_mul_of_nonneg_left <;> linarith
        linarith
      have h5 : ((2 * ey + 6) * (1 + ey / 2 ^ p) + ey + 1) / (((2 * k + 1) * (2 * k + 2) : ℕ) : ℝ)
          ≤ ((2 * ey + 6) * (3 / 2) + ey + 1) / 2 := by
        apply div_le_div₀ <;> linarith
      linarith
    · rw [Finset.sum_range_succ]
      refine (hacc.add ht).mono ?_
      push_cast; linarith

/-- `cosSmall` against the cosine. -/
theorem cosSmall_near {p : ℕ} (hp : 64 ≤ p) {a : ℤ} {x : ℝ} (hx0 : 0 ≤ x) (hx : x ≤ 1)
    (ha : Near p (2 * p + 11) a x) : Near p (6 * p ^ 2 + 60 * p + 120) (cosSmall p a) (Real.cos x) := by
  have hbig := cosErr_small_real hp
  have hp0 : (64 : ℝ) ≤ p := by exact_mod_cast hp
  have hxa : |x| ≤ 1 := by rw [abs_of_nonneg hx0]; exact hx
  have hP : (0 : ℝ) < 2 ^ p := by positivity
  have hy : Near p (6 * p + 37) (a * a / 2 ^ p) (x ^ 2) := by
    have h := ha.mul ha hxa hxa
    rw [← pow_two x] at h
    refine h.mono ?_
    have : (2 * (p : ℝ) + 11) / 2 ^ p ≤ 1 := by rw [div_le_one hP]; nlinarith
    nlinarith
  set K := p / 2 + 1 with hK
  have hloop := cosLoop_near hxa hy (by positivity) (by nlinarith) K 0 (2 ^ p) 0
    (by
      unfold Near cosTerm
      simp
      positivity)
    (by unfold Near; simp)
  rw [Nat.zero_add] at hloop
  have hs := Real.hasSum_cos x
  have htail := tail_le_two_mul (f := cosTerm x) hs (by
    intro k
    rw [cosTerm_succ, abs_neg, abs_div, abs_mul, Nat.abs_cast, abs_pow]
    have h3 : (2 : ℝ) ≤ (((2 * k + 1) * (2 * k + 2) : ℕ) : ℝ) := by
      have : 2 ≤ (2 * k + 1) * (2 * k + 2) := by nlinarith
      exact_mod_cast this
    have h4 : |x| ^ 2 ≤ 1 := pow_le_one₀ (abs_nonneg _) hxa
    apply div_le_div₀ (abs_nonneg _) _ (by norm_num) h3
    exact mul_le_of_le_one_right (abs_nonneg _) h4) K
  have hterm : 2 ^ p * |cosTerm x K| ≤ 1 := by
    unfold cosTerm
    rw [abs_div, abs_mul, abs_pow, abs_neg, abs_one, one_pow, one_mul, abs_pow, Nat.abs_cast]
    have h1 : |x| ^ (2 * K) ≤ 1 := pow_le_one₀ (abs_nonneg _) hxa
    have h2 : 2 ^ p ≤ (2 * K).factorial := by
      calc 2 ^ p ≤ 2 ^ (2 * K - 1) := Nat.pow_le_pow_right (by norm_num) (by omega)
        _ ≤ (1 + (2 * K - 1)).factorial := by
            have := Nat.factorial_mul_pow_le_factorial (m := 1) (n := 2 * K - 1)
            simpa using this
        _ = (2 * K).factorial := by congr 1; omega
    have h2' : (2 : ℝ) ^ p ≤ ((2 * K).factorial : ℝ) := by exact_mod_cast h2
    rw [← mul_div_assoc, div_le_one (by positivity)]
    nlinarith
  have hK' : (K : ℝ) ≤ p / 2 + 1 := by
    have : 2 * K ≤ p + 2 := by omega
    have : (2 : ℝ) * K ≤ p + 2 := by exact_mod_cast this
    linarith
  unfold Near at hloop ⊢
  set S := ∑ i ∈ Finset.range K, cosTerm x i
  have h5 : ((cosSmall p a : ℤ) : ℝ) - 2 ^ p * Real.cos x
      = ((cosSmall p a : ℤ) - 2 ^ p * S) - 2 ^ p * (Real.cos x - S) := by ring
  rw [h5]
  refine le_trans (abs_sub _ _) ?_
  rw [abs_mul, abs_of_pos hP]
  have h6 : (2 : ℝ) ^ p * |Real.cos x - S| ≤ 2 := by
    calc (2 : ℝ) ^ p * |Real.cos x - S| ≤ 2 ^ p * (2 * |cosTerm x K|) := by gcongr
      _ ≤ 2 := by linarith
  have h7 : (K : ℝ) * (2 * (6 * p + 37) + 6) ≤ (p / 2 + 1) * (2 * (6 * p + 37) + 6) := by gcongr
  have h8 : |((cosSmall p a : ℤ) : ℝ) - 2 ^ p * S| ≤ K * (2 * (6 * p + 37) + 6) := hloop
  nlinarith

/-- Doubling the angle. -/
theorem cosDouble_near {p : ℕ} {e : ℝ} {c : ℤ} {x : ℝ} (h : Near p e c (Real.cos x)) (he : 0 ≤ e)
    (hsmall : 2 * e ≤ 2 ^ p) : Near p (5 * e + 1) (cosDouble p c) (Real.cos (2 * x)) := by
  unfold Near at *
  have hP : (0 : ℝ) < 2 ^ p := by positivity
  have hf := floor_div_near (2 * c * c) (2 ^ p) (by positivity)
  push_cast at hf
  rw [Real.cos_two_mul, cosDouble]
  push_cast
  have h1 : (((2 * c * c / 2 ^ p : ℤ) : ℝ) - 2 ^ p) - 2 ^ p * (2 * Real.cos x ^ 2 - 1)
      = (((2 * c * c / 2 ^ p : ℤ) : ℝ) - 2 * c * c / 2 ^ p)
        + 2 * ((c - 2 ^ p * Real.cos x) * ((c - 2 ^ p * Real.cos x) / 2 ^ p + 2 * Real.cos x)) := by
    field_simp; ring
  rw [h1]
  refine le_trans (abs_add_le _ _) ?_
  have h2 : |((c : ℝ) - 2 ^ p * Real.cos x) / 2 ^ p + 2 * Real.cos x| ≤ 5 / 2 := by
    refine le_trans (abs_add_le _ _) ?_
    rw [abs_div, abs_of_pos hP, abs_mul, abs_two]
    have h3 : |(c : ℝ) - 2 ^ p * Real.cos x| / 2 ^ p ≤ 1 / 2 := by
      rw [div_le_div_iff₀ hP (by norm_num)]; linarith
    have := Real.abs_cos_le_one x
    linarith
  have h4 : |2 * (((c : ℝ) - 2 ^ p * Real.cos x)
      * (((c : ℝ) - 2 ^ p * Real.cos x) / 2 ^ p + 2 * Real.cos x))| ≤ 2 * (e * (5 / 2)) := by
    rw [abs_mul, abs_two, abs_mul]
    have := mul_le_mul h h2 (abs_nonneg _) he
    linarith
  linarith

/-- The fixed-point cosines are within `cosErr p` of the scaled real ones. -/
theorem cosFix_near {p N j : ℕ} (hp : 64 ≤ p) (hj : j < N) :
    Near p (cosErr p) (cosFix p N j) (Real.cos (2 * Real.pi * j / N)) := by
  have hbig := cosErr_small_real hp
  have hp0 : (64 : ℝ) ≤ p := by exact_mod_cast hp
  have hN : (0 : ℝ) < N := by exact_mod_cast (by omega : 0 < N)
  have hjN : (j : ℝ) ≤ N := by exact_mod_cast hj.le
  have hx0 : 0 ≤ Real.pi * j / (4 * N) := by positivity
  have hx1 : Real.pi * j / (4 * N) ≤ 1 := by
    rw [div_le_one (by positivity)]
    have := Real.pi_le_four
    nlinarith [Real.pi_pos]
  have h0 := cosSmall_near hp hx0 hx1 (angle_near p N j hj)
  have h1 := cosDouble_near h0 (by positivity) (by nlinarith)
  have h2 := cosDouble_near h1 (by positivity) (by nlinarith)
  have h3 := cosDouble_near h2 (by positivity) (by nlinarith)
  have hang : 2 * (2 * (2 * (Real.pi * j / (4 * N)))) = 2 * Real.pi * j / N := by field_simp; ring
  rw [hang] at h3
  refine h3.mono ?_
  unfold cosErr
  push_cast
  nlinarith

end Sys2Proof.Machine
end

