-- ==== Sys2Proof/Laws/Peak.lean ====
section
/-!
SUPPORT. The comparison of Machine/Peak.lean is the comparison of the real powers of 40_spectral.md
R52: `powGt ... u k v j` holds exactly when `u * P[k] > v * P[j]` (log 4).
-/
namespace Sys2Proof.Machine

theorem sumTo_eq_sum (n : ℕ) (f : ℕ → ℤ) : sumTo n f = ∑ i ∈ Finset.range n, f i := by
  induction n with
  | zero => rfl
  | succ n ih => rw [sumTo, ih, Finset.sum_range_succ]

/-- A list made by `map` over `range`, read at an index inside it. -/
theorem getD_map_range {α : Type} (f : ℕ → α) (n i : ℕ) (h : i < n) (d : α) :
    ((List.range n).map f).getD i d = f i := by
  simp [List.getD, h]

/-- Turning by whole circles. -/
theorem cos_mod (N a : ℕ) (hN : 0 < N) :
    Real.cos (2 * Real.pi * ((a % N : ℕ) : ℝ) / N) = Real.cos (2 * Real.pi * a / N) := by
  have hN' : (N : ℝ) ≠ 0 := by exact_mod_cast hN.ne'
  have h : (a : ℝ) = ((a % N : ℕ) : ℝ) + ((a / N : ℕ) : ℝ) * N := by
    have := Nat.mod_add_div a N
    have h2 : ((a % N + N * (a / N) : ℕ) : ℝ) = (a : ℝ) := by rw [this]
    push_cast at h2 ⊢
    linarith
  have h3 : 2 * Real.pi * (a : ℝ) / N
      = 2 * Real.pi * ((a % N : ℕ) : ℝ) / N + ((a / N : ℕ) : ℝ) * (2 * Real.pi) := by
    rw [h]; field_simp
  rw [h3, Real.cos_add_nat_mul_two_pi]

/-- The rotation of the indices of a frame. -/
theorem sum_rotate (N n : ℕ) (hn : n < N) (g : ℕ → ℝ) :
    ∑ m ∈ Finset.range N, g m = ∑ d ∈ Finset.range N, g ((n + d) % N) := by
  have hN : 0 < N := by omega
  refine Finset.sum_bij' (fun m _ => (m + (N - n)) % N) (fun d _ => (n + d) % N) ?_ ?_ ?_ ?_ ?_
  · intro m _; exact Finset.mem_range.mpr (Nat.mod_lt _ hN)
  · intro d _; exact Finset.mem_range.mpr (Nat.mod_lt _ hN)
  · intro m hm
    rw [Finset.mem_range] at hm
    rw [Nat.add_mod_mod, show n + (m + (N - n)) = m + N by omega, Nat.add_mod_right, Nat.mod_eq_of_lt hm]
  · intro d hd
    rw [Finset.mem_range] at hd
    rw [Nat.mod_add_mod, show n + d + (N - n) = d + N by omega, Nat.add_mod_right, Nat.mod_eq_of_lt hd]
  · intro m hm
    rw [Finset.mem_range] at hm
    rw [Nat.add_mod_mod, show n + (m + (N - n)) = m + N by omega, Nat.add_mod_right, Nat.mod_eq_of_lt hm]

/-- `P[k]` is a combination of cosines with the autocorrelation as its integer coefficients. -/
theorem dftPower_eq (N : ℕ) (x : List Sample) (k : ℕ) (hN : 0 < N) :
    dftPower N x k
      = ∑ d ∈ Finset.range N, (autocorr N x d : ℝ) * Real.cos (2 * Real.pi * ((d * k : ℕ) : ℝ) / N) := by
  have hN' : (N : ℝ) ≠ 0 := by exact_mod_cast hN.ne'
  set A : ℕ → ℝ := fun n => 2 * Real.pi * k * n / N with hA
  have h1 : dftPower N x k
      = ∑ n ∈ Finset.range N, ∑ m ∈ Finset.range N,
          (sampleAt x n : ℝ) * (sampleAt x m : ℝ) * Real.cos (A m - A n) := by
    unfold dftPower dftCos dftSin
    rw [pow_two, pow_two, Finset.sum_mul_sum, Finset.sum_mul_sum, ← Finset.sum_add_distrib]
    refine Finset.sum_congr rfl fun n _ => ?_
    rw [← Finset.sum_add_distrib]
    refine Finset.sum_congr rfl fun m _ => ?_
    rw [Real.cos_sub]; ring
  have hcos : ∀ n d : ℕ, Real.cos (A ((n + d) % N) - A n) = Real.cos (2 * Real.pi * ((d * k : ℕ) : ℝ) / N) := by
    intro n d
    have h2 : (((n + d) % N : ℕ) : ℝ) = n + d - ((n + d) / N : ℕ) * N := by
      have := Nat.mod_add_div (n + d) N
      have h3 : (((n + d) % N + N * ((n + d) / N) : ℕ) : ℝ) = ((n + d : ℕ) : ℝ) := by rw [this]
      push_cast at h3 ⊢
      linarith
    have h4 : A ((n + d) % N) - A n
        = 2 * Real.pi * ((d * k : ℕ) : ℝ) / N - ((k * ((n + d) / N) : ℕ) : ℝ) * (2 * Real.pi) := by
      simp only [hA]
      rw [h2]
      push_cast
      field_simp; ring
    rw [h4, Real.cos_sub_nat_mul_two_pi]
  rw [h1]
  have h5 : ∀ n ∈ Finset.range N, ∑ m ∈ Finset.range N,
      (sampleAt x n : ℝ) * (sampleAt x m : ℝ) * Real.cos (A m - A n)
      = ∑ d ∈ Finset.range N, (sampleAt x n : ℝ) * (sampleAt x ((n + d) % N) : ℝ)
          * Real.cos (2 * Real.pi * ((d * k : ℕ) : ℝ) / N) := by
    intro n hn
    rw [sum_rotate N n (Finset.mem_range.mp hn)]
    exact Finset.sum_congr rfl fun d _ => by rw [hcos]
  rw [Finset.sum_congr rfl h5, Finset.sum_comm]
  refine Finset.sum_congr rfl fun d _ => ?_
  rw [autocorr, sumTo_eq_sum, ← Finset.sum_mul]
  push_cast
  rfl

/-- The autocorrelation list read inside the frame. -/
theorem autocorrList_getD (N : ℕ) (x : List Sample) {d : ℕ} (hd : d < N) :
    (autocorrList N x).getD d 0 = autocorr N x d := getD_map_range _ _ _ hd _

/-- The total magnitude of the autocorrelation. -/
theorem autocorrMass_eq (N : ℕ) (x : List Sample) :
    (autocorrMass N (autocorrList N x) : ℝ) = ∑ d ∈ Finset.range N, |(autocorr N x d : ℝ)| := by
  unfold autocorrMass
  rw [sumTo_eq_sum]
  have h0 : (0 : ℤ) ≤ ∑ d ∈ Finset.range N, (((autocorrList N x).getD d 0).natAbs : ℤ) :=
    Finset.sum_nonneg fun _ _ => by positivity
  have h1 : ((∑ d ∈ Finset.range N, (((autocorrList N x).getD d 0).natAbs : ℤ)).toNat : ℤ)
      = ∑ d ∈ Finset.range N, |autocorr N x d| := by
    rw [Int.toNat_of_nonneg h0]
    refine Finset.sum_congr rfl fun d hd => ?_
    rw [autocorrList_getD N x (Finset.mem_range.mp hd), Int.natCast_natAbs]
  rw [← Int.cast_natCast, h1]
  push_cast
  rfl

/-- The fixed-point power is within the error of its cosines of the real one. -/
theorem powFix_near {p N : ℕ} (hp : 64 ≤ p) (hN : 0 < N) (x : List Sample) (k : ℕ) (c : ℕ → ℤ)
    (hc : ∀ i < N, c i = cosFix p N i) :
    Near p (autocorrMass N (autocorrList N x) * cosErr p) (powFix N c (autocorrList N x) k)
      (dftPower N x k) := by
  rw [dftPower_eq N x k hN, autocorrMass_eq]
  unfold Near powFix
  rw [sumTo_eq_sum]
  push_cast
  rw [Finset.mul_sum, ← Finset.sum_sub_distrib, Finset.sum_mul]
  refine le_trans (Finset.abs_sum_le_sum_abs _ _) (Finset.sum_le_sum fun d hd => ?_)
  have hlt : d * k % N < N := Nat.mod_lt _ hN
  rw [autocorrList_getD N x (Finset.mem_range.mp hd), hc _ hlt]
  have h := cosFix_near hp hlt
  rw [cos_mod N (d * k) hN] at h
  unfold Near at h
  have h1 : (autocorr N x d : ℝ) * (cosFix p N (d * k % N) : ℝ)
      - 2 ^ p * ((autocorr N x d : ℝ) * Real.cos (2 * Real.pi * ((d : ℝ) * k) / N))
      = (autocorr N x d : ℝ) * ((cosFix p N (d * k % N) : ℝ)
        - 2 ^ p * Real.cos (2 * Real.pi * ((d * k : ℕ) : ℝ) / N)) := by push_cast; ring
  rw [h1, abs_mul]
  gcongr

/-- The fixed-point difference that `powGt` looks at. -/
theorem powDiff_near {p N : ℕ} (hp : 64 ≤ p) (hN : 0 < N) (x : List Sample) (u k v j : ℕ) (c : ℕ → ℤ)
    (hc : ∀ i < N, c i = cosFix p N i) :
    Near p (((u + v) * autocorrMass N (autocorrList N x) * cosErr p : ℕ))
      (u * powFix N c (autocorrList N x) k - v * powFix N c (autocorrList N x) j)
      (u * dftPower N x k - v * dftPower N x j) := by
  have h1 := powFix_near hp hN x k c hc
  have h2 := powFix_near hp hN x j c hc
  unfold Near at *
  push_cast
  set F := (powFix N c (autocorrList N x) k : ℝ)
  set G := (powFix N c (autocorrList N x) j : ℝ)
  set M := (autocorrMass N (autocorrList N x) : ℝ) * (cosErr p : ℝ)
  have h3 : (u : ℝ) * F - v * G - 2 ^ p * (u * dftPower N x k - v * dftPower N x j)
      = u * (F - 2 ^ p * dftPower N x k) - v * (G - 2 ^ p * dftPower N x j) := by ring
  rw [h3]
  refine le_trans (abs_sub _ _) ?_
  rw [abs_mul, abs_mul, Nat.abs_cast, Nat.abs_cast]
  have h4 : (u : ℝ) * |F - 2 ^ p * dftPower N x k| ≤ u * M := by gcongr
  have h5 : (v : ℝ) * |G - 2 ^ p * dftPower N x j| ≤ v * M := by gcongr
  have h6 : ((u : ℝ) + v) * (autocorrMass N (autocorrList N x) : ℝ) * (cosErr p : ℝ) = u * M + v * M := by
    ring
  rw [h6]; linarith

/-- A difference of multiples of powers that is not 0 is bounded away from 0. -/
theorem powDiff_separated {N : ℕ} (hN : 0 < N) (x : List Sample) (u k v j : ℕ)
    (h : (u : ℝ) * dftPower N x k - v * dftPower N x j ≠ 0) :
    1 ≤ |(u : ℝ) * dftPower N x k - v * dftPower N x j|
      * (2 * (((u + v) * autocorrMass N (autocorrList N x) : ℕ) : ℝ)) ^ N := by
  set s := (Finset.range N).disjSum (Finset.range N)
  set c : ℕ ⊕ ℕ → ℤ := Sum.elim (fun d => u * autocorr N x d) (fun d => -(v * autocorr N x d))
  set e : ℕ ⊕ ℕ → ℕ := Sum.elim (fun d => d * k) (fun d => d * j)
  have hsum : ∑ i ∈ s, (c i : ℝ) * Real.cos (2 * Real.pi * e i / N)
      = (u : ℝ) * dftPower N x k - v * dftPower N x j := by
    rw [Finset.sum_disjSum, dftPower_eq N x k hN, dftPower_eq N x j hN, Finset.mul_sum, Finset.mul_sum,
      sub_eq_add_neg, ← Finset.sum_neg_distrib]
    congr 1 <;> refine Finset.sum_congr rfl fun d _ => ?_
    · simp only [c, e, Sum.elim_inl]; push_cast; ring
    · simp only [c, e, Sum.elim_inr]; push_cast; ring
  have hm : ∑ i ∈ s, |(c i : ℝ)| ≤ (((u + v) * autocorrMass N (autocorrList N x) : ℕ) : ℝ) := by
    rw [Finset.sum_disjSum]
    push_cast
    rw [autocorrMass_eq, add_mul, Finset.mul_sum, Finset.mul_sum]
    apply le_of_eq
    congr 1 <;> refine Finset.sum_congr rfl fun d _ => ?_
    · simp only [c, Sum.elim_inl]; push_cast; rw [abs_mul, Nat.abs_cast]
    · simp only [c, Sum.elim_inr]; push_cast; rw [abs_neg, abs_mul, Nat.abs_cast]
  rw [← hsum] at h ⊢
  exact cos_combination_separated s c e hN _ hm h

/-- The full precision is enough to see a separated difference through the error. -/
theorem fullPrec_enough (N m : ℕ) (hm : 0 < m) :
    2 * (m * cosErr (fullPrec N m)) * (2 * m) ^ N < 2 ^ fullPrec N m := by
  set B := Nat.log2 (m + 1) + 2 with hB
  have hmB : 2 * m ≤ 2 ^ B := by
    have h := Nat.lt_log2_self (n := m + 1)
    have h2 : (2 : ℕ) ^ B = 2 * 2 ^ (Nat.log2 (m + 1) + 1) := by rw [hB]; ring
    omega
  set q := (N + 2) * B + 32 with hq
  have hp : fullPrec N m = 2 * q := by unfold fullPrec; rw [← hB, hq]; ring
  rw [hp]
  have hbase : ∀ n : ℕ, 32 ≤ n → 2000 * (2 * n + 2) ^ 2 < 2 ^ n := by
    intro n hn
    induction n, hn using Nat.le_induction with
    | base => norm_num
    | succ n hn ih =>
      have h : 2 ^ (n + 1) = 2 ^ n * 2 := pow_succ 2 n
      rw [h]
      nlinarith
  have h1 : cosErr (2 * q) < 2 ^ q := hbase q (by omega)
  have h2 : (2 * m) ^ (N + 1) ≤ 2 ^ q := by
    calc (2 * m) ^ (N + 1) ≤ (2 ^ B) ^ (N + 1) := Nat.pow_le_pow_left hmB _
      _ = 2 ^ (B * (N + 1)) := by rw [← pow_mul]
      _ ≤ 2 ^ q := Nat.pow_le_pow_right (by norm_num) (by rw [hq]; nlinarith)
  calc 2 * (m * cosErr (2 * q)) * (2 * m) ^ N = (2 * m) ^ (N + 1) * cosErr (2 * q) := by ring
    _ < (2 * m) ^ (N + 1) * 2 ^ q := by
        apply Nat.mul_lt_mul_of_pos_left h1; positivity
    _ ≤ 2 ^ q * 2 ^ q := Nat.mul_le_mul_right _ h2
    _ = 2 ^ (2 * q) := by rw [← pow_add]; congr 1; ring

/-- A separated difference is seen through the error. -/
theorem exceeds_of_separated {P T E D W : ℝ} (hP : 0 < P) (hW : 0 < W) (hT : |T - P * D| ≤ E)
    (hD : 1 ≤ D * W) (hE : 2 * E * W < P) : E < T := by
  rw [abs_le] at hT
  have h1 : P ≤ P * (D * W) := le_mul_of_one_le_right hP.le hD
  have h2 : 2 * E * W < P * D * W := by linarith
  have h3 : 2 * E < P * D := lt_of_mul_lt_mul_right h2 hW.le
  linarith [hT.1]

/-- At the full precision, a fixed-point difference exceeds its error exactly when the real difference,
which is 0 or separated from 0, is positive. -/
theorem fullPrec_decides {N m p : ℕ} (hN : 0 < N) (hp : p = fullPrec N m) {T D : ℝ}
    (hT : |T - 2 ^ p * D| ≤ ((m * cosErr p : ℕ) : ℝ))
    (hD : D ≠ 0 → 1 ≤ |D| * (2 * (m : ℝ)) ^ N) :
    ((m * cosErr p : ℕ) : ℝ) < T ↔ 0 < D := by
  have hP : (0 : ℝ) < 2 ^ p := by positivity
  constructor
  · intro h
    have h1 : 0 < 2 ^ p * D := by linarith [(abs_le.mp hT).2]
    exact pos_of_mul_pos_right h1 hP.le
  · intro h
    have hsep := hD h.ne'
    rw [abs_of_pos h] at hsep
    have hm0 : 0 < m := by
      rcases Nat.eq_zero_or_pos m with h0 | h0
      · subst h0
        rw [Nat.cast_zero, mul_zero, zero_pow hN.ne', mul_zero] at hsep
        linarith
      · exact h0
    have hmm : (0 : ℝ) < (2 * (m : ℝ)) ^ N := by
      have : (0 : ℝ) < m := by exact_mod_cast hm0
      positivity
    have hen : 2 * (m * cosErr p) * (2 * m) ^ N < 2 ^ p := hp ▸ fullPrec_enough N m hm0
    have hen' : 2 * ((m * cosErr p : ℕ) : ℝ) * (2 * (m : ℝ)) ^ N < 2 ^ p := by exact_mod_cast hen
    exact exceeds_of_separated hP hmm hT hsep hen'

/-- `powGt` decides the comparison of the real powers of 40_spectral.md R52. -/
theorem powGt_iff {N : ℕ} (hN : 0 < N) (x : List Sample) (u k v j : ℕ) :
    powGt N (lowCosines N) (autocorrList N x) u k v j = true
      ↔ (v : ℝ) * dftPower N x j < u * dftPower N x k := by
  set a := autocorrList N x with ha
  set m := (u + v) * autocorrMass N a with hm
  have hlow := powDiff_near (p := lowPrec) (by norm_num [lowPrec]) hN x u k v j
    (fun i => (lowCosines N).getD i 0) (fun i hi => getD_map_range _ _ _ hi _)
  set Δ := (u : ℝ) * dftPower N x k - v * dftPower N x j with hΔ
  have hgoal : (v : ℝ) * dftPower N x j < u * dftPower N x k ↔ 0 < Δ := by
    rw [hΔ]; constructor <;> intro h <;> linarith
  rw [hgoal]
  rw [← ha, ← hm] at hlow
  unfold powGt
  simp only [← hm]
  set t := u * powFix N (fun i => (lowCosines N).getD i 0) a k
    - v * powFix N (fun i => (lowCosines N).getD i 0) a j with ht
  have hP : (0 : ℝ) < 2 ^ lowPrec := by positivity
  unfold Near at hlow
  rw [abs_le] at hlow
  split
  · rename_i h
    have h' : ((m * cosErr lowPrec : ℕ) : ℝ) < (t : ℝ) := by exact_mod_cast h
    have : 0 < 2 ^ lowPrec * Δ := by linarith [hlow.2]
    simp only [true_iff]
    exact pos_of_mul_pos_right this hP.le
  · split
    · rename_i h
      have h' : (t : ℝ) < -((m * cosErr lowPrec : ℕ) : ℝ) := by exact_mod_cast h
      have : 2 ^ lowPrec * Δ < 0 := by linarith [hlow.1]
      simp only [Bool.false_eq_true, false_iff, not_lt]
      by_contra hc
      have : 0 < 2 ^ lowPrec * Δ := mul_pos hP (not_le.mp hc)
      linarith
    · have hp64 : 64 ≤ fullPrec N m := by unfold fullPrec; omega
      have hfull := powDiff_near hp64 hN x u k v j (cosFix (fullPrec N m) N) (fun _ _ => rfl)
      have hsep := powDiff_separated hN x u k v j
      rw [← ha, ← hm] at hfull hsep
      rw [decide_eq_true_iff, ← fullPrec_decides hN rfl hfull hsep]
      exact_mod_cast Iff.rfl

end Sys2Proof.Machine
end

