-- ==== Sys2Proof/Laws/PerInstr.lean ====
section
/-!
SUPPORT. The family of statements made per operation: the word an operation is written with lies outside
the reserved ranges of 30_encoding.md R48.
-/
namespace Sys2Proof.Laws

/-- The operation's word is no reserved word (30_encoding.md R48). -/
def EncodesUnreserved.Statement (i : Instr) : Prop := EventWord.reserved (encode i) = false

theorem EncodesUnreserved.reset : EncodesUnreserved.Statement .reset := by
  unfold EncodesUnreserved.Statement
  decide

theorem EncodesUnreserved.sample : EncodesUnreserved.Statement .sample := by
  unfold EncodesUnreserved.Statement
  decide

theorem EncodesUnreserved.frIdleStart (he : Bool) :
    EncodesUnreserved.Statement (.frIdleStart he) := by
  unfold EncodesUnreserved.Statement
  revert he
  decide

theorem EncodesUnreserved.frIdleOther (he : Bool) :
    EncodesUnreserved.Statement (.frIdleOther he) := by
  unfold EncodesUnreserved.Statement
  revert he
  decide

theorem EncodesUnreserved.frPktEnd (full hs : Bool) :
    EncodesUnreserved.Statement (.frPktEnd full hs) := by
  unfold EncodesUnreserved.Statement
  revert full hs
  decide

theorem EncodesUnreserved.frPktAppend (hs : Bool) :
    EncodesUnreserved.Statement (.frPktAppend hs) := by
  unfold EncodesUnreserved.Statement
  revert hs
  decide

theorem EncodesUnreserved.frPktFull (hs : Bool) :
    EncodesUnreserved.Statement (.frPktFull hs) := by
  unfold EncodesUnreserved.Statement
  revert hs
  decide

theorem EncodesUnreserved.outByte (last : Bool) :
    EncodesUnreserved.Statement (.outByte last) := by
  unfold EncodesUnreserved.Statement
  revert last
  decide

theorem EncodesUnreserved.outEmpty : EncodesUnreserved.Statement .outEmpty := by
  unfold EncodesUnreserved.Statement
  decide

theorem EncodesUnreserved.capfail : EncodesUnreserved.Statement .capfail := by
  unfold EncodesUnreserved.Statement
  decide

theorem EncodesUnreserved.peak : EncodesUnreserved.Statement .peak := by
  unfold EncodesUnreserved.Statement
  decide

theorem EncodesUnreserved.bin2hz : EncodesUnreserved.Statement .bin2hz := by
  unfold EncodesUnreserved.Statement
  decide

theorem EncodesUnreserved.quant : EncodesUnreserved.Statement .quant := by
  unfold EncodesUnreserved.Statement
  decide

theorem EncodesUnreserved.hsStart : EncodesUnreserved.Statement .hsStart := by
  unfold EncodesUnreserved.Statement
  decide

theorem EncodesUnreserved.hsEnd : EncodesUnreserved.Statement .hsEnd := by
  unfold EncodesUnreserved.Statement
  decide

theorem EncodesUnreserved.classify : EncodesUnreserved.Statement .classify := by
  unfold EncodesUnreserved.Statement
  decide

theorem EncodesUnreserved.evenidx : EncodesUnreserved.Statement .evenidx := by
  unfold EncodesUnreserved.Statement
  decide

theorem EncodesUnreserved.assemble : EncodesUnreserved.Statement .assemble := by
  unfold EncodesUnreserved.Statement
  decide

theorem EncodesUnreserved.finalize : EncodesUnreserved.Statement .finalize := by
  unfold EncodesUnreserved.Statement
  decide

theorem EncodesUnreserved.dispatch : EncodesUnreserved.Statement .dispatch := by
  unfold EncodesUnreserved.Statement
  decide

theorem EncodesUnreserved.stop : EncodesUnreserved.Statement .stop := by
  unfold EncodesUnreserved.Statement
  decide

end Sys2Proof.Laws
end

