-- ==== Sys2Proof/Tests/Slice0.lean ====
section
/-!
SUPPORT. Own tests. Expected results are the spec's: the vectors of 95_test_vectors.md are named V-… as
there, other values are written out from the rule named. Each `witness_…` theorem shows a concrete state
and operands that meet the hypotheses of the obligation it is named after.
-/
namespace Sys2Proof.Tests

open Sys2Proof Sys2Proof.Machine

/- One test after the other: a kernel evaluation waits for every declaration before it, and many waiting
at once take a thread each. -/
set_option Elab.async false

/-! ### Configurations and small states -/

/-- EX2 of 95_test_vectors.md. -/
def ex2 : Config where
  sampleRateHz := 8000
  frameN := 8
  startHz := 1000
  stepHz := 1000
  bits := 1
  hsStartHz := 3000
  hsEndHz := 4000
  pktMax := 64
  ovfPolicy := .hold
  outqDepth := 16
  peakEps := 0
  frameLat := 0
  inRange := by decide

/-- EX1 with another packet bound, overflow policy and queue depth. -/
def ex1With (pktMax : Nat) (policy : OvfPolicy) (depth : Nat) (h : 1 ≤ pktMax ∧ 1 ≤ depth) : Config where
  toParams := { Config.ex1.toParams with pktMax := pktMax, ovfPolicy := policy, outqDepth := depth }
  inRange := by obtain ⟨h1, h2⟩ := h; simp [Params.inRange, Config.ex1, h1, h2]

/-- EX1 with `PKT_MAX` = 4 and `OVF_POLICY` = HOLD. -/
def hold4 : Config := ex1With 4 .hold 16 (by decide)

/-- EX1 with `PKT_MAX` = 4 and `OVF_POLICY` = ABORT. -/
def abort4 : Config := ex1With 4 .abort 16 (by decide)

/-- EX3 with `HS_END_HZ` = 8200, so that the handshake windows overlap (V-CL-4). -/
def overlapping : Config where
  sampleRateHz := 20000
  frameN := 200000
  startHz := 1024
  stepHz := 256
  bits := 4
  hsStartHz := 8192
  hsEndHz := 8200
  pktMax := 64
  ovfPolicy := .hold
  outqDepth := 16
  peakEps := 0
  frameLat := 0
  inRange := by decide

/-- A record with the given framer state, packet and queue. -/
def coreWith (fr : Framer) (pkt : List Nat) (outq : List Beat) : Core :=
  { Core.reset with fr := fr, pkt := pkt, outq := outq }

/-- A machine with the given record and operand bin. -/
def machine (cfg : Config) (st : Core) (k : Nat) : State :=
  { State.resetWith cfg with st := st, args := { (State.resetWith cfg).args with bin := k } }

/-- The next state, if there is one. -/
def nextOf (o : Host.Outcome State Fault Refusal) : Option State :=
  match o with
  | .next t => some t
  | _ => none

/-- Whether the outcome is a refusal for the given reason. -/
def refusedFor (o : Host.Outcome State Fault Refusal) (r : Refusal) : Bool :=
  match o with
  | .refused r' => decide (r' = r)
  | _ => false

/-- Framer state, packet, queue and status word after an operation. -/
def framerView (o : Host.Outcome State Fault Refusal) :
    Option (Framer × List Nat × List Beat × StatusWord) :=
  (nextOf o).map fun t => (t.st.fr, t.st.pkt, t.st.outq, statusWord t.st)

/-- What a function unit answered, and that it left `st` alone. -/
def unitView (s : State) (o : Host.Outcome State Fault Refusal) : Option (UnitResult × Bool) :=
  (nextOf o).map fun t => (t.ret, decide (t.st = s.st))

/-- V-PK-4's frame. -/
def frame2 : List Sample := [1000, 0, -1000, 0, 1000, 0, -1000, 0]

/-! ### Well-formedness (30_encoding.md R43; 70_reset_and_hazards.md R98; 30_encoding.md R48) -/

theorem test_wellFormed_both_handshakes_idle :
    (Instr.frIdleStart true).wellFormed Config.ex1.toParams = false
      ∧ (Instr.frIdleStart true).wellFormed overlapping.toParams = true
      ∧ (Instr.frIdleStart false).wellFormed Config.ex1.toParams = true := by decide

theorem test_wellFormed_both_handshakes_end :
    (Instr.frPktEnd false true).wellFormed Config.ex1.toParams = false
      ∧ (Instr.frPktEnd true true).wellFormed overlapping.toParams = true
      ∧ (Instr.frPktEnd true false).wellFormed Config.ex1.toParams = true := by decide

/-- Each range of R98, broken by the nearest value. -/
theorem test_elaborate_refuses :
    Config.elaborate { Config.ex1.toParams with sampleRateHz := 0 } = none
      ∧ Config.elaborate { Config.ex1.toParams with frameN := 1 } = none
      ∧ Config.elaborate { Config.ex1.toParams with stepHz := 0 } = none
      ∧ Config.elaborate { Config.ex1.toParams with bits := 0 } = none
      ∧ Config.elaborate { Config.ex1.toParams with bits := 17 } = none
      ∧ Config.elaborate { Config.ex1.toParams with pktMax := 0 } = none
      ∧ Config.elaborate { Config.ex1.toParams with outqDepth := 0 } = none
      ∧ Config.elaborate { Config.ex1.toParams with peakEps := -1 } = none
      ∧ Config.elaborate { Config.ex1.toParams with frameLat := 375 } = none
      ∧ (Config.elaborate { Config.ex1.toParams with frameLat := 374, bits := 16 }).isSome := by decide

/-- The two ends of every range of R48's table, and words beside them. -/
theorem test_reserved_ends :
    ([0x01, 0x1F, 0x21, 0x3F, 0xC1, 0xDF, 0x81, 0x9F, 0x48, 0x4B, 0x50, 0x5F, 0x61, 0x64, 0x7F, 0xAA,
        0xBF, 0xE0, 0xFF].all fun n => EventWord.reserved (BitVec.ofNat 8 n)) = true
      ∧ ([0x00, 0x20, 0x40, 0x47, 0x4C, 0x4F, 0x60, 0x62, 0x63, 0x80, 0xA0, 0xA9, 0xC0].all fun n =>
        !EventWord.reserved (BitVec.ofNat 8 n)) = true := by decide

/-- The decoder, written from R45 to R47, refuses exactly the words of R48's table. -/
theorem test_decoder_against_reserved_table :
    ((List.range 256).all fun n =>
      match decode (BitVec.ofNat 8 n) with
      | .ok _ => !EventWord.reserved (BitVec.ofNat 8 n)
      | .error _ => EventWord.reserved (BitVec.ofNat 8 n)) = true := by decide +kernel

/-- The reasons of R48's rows. -/
theorem test_reserved_reasons :
    decode 0x01#8 = .error .nonzeroLow ∧ decode 0x9F#8 = .error .nonzeroLow
      ∧ decode 0x48#8 = .error .idleFull ∧ decode 0x4B#8 = .error .idleFull
      ∧ decode 0x50#8 = .error .frameHigh ∧ decode 0x61#8 = .error .reservedBeat
      ∧ decode 0x64#8 = .error .outHigh ∧ decode 0xAA#8 = .error .unassignedFunc
      ∧ decode 0xE0#8 = .error .reservedClass := by decide

/-! ### Decoding: every operation's words, bit by bit from R45 to R47 -/

theorem test_decode_plain :
    decode 0b00000000#8 = .ok .reset ∧ decode 0b00100000#8 = .ok .sample
      ∧ decode 0b10000000#8 = .ok .capfail ∧ decode 0b11000000#8 = .ok .stop := by decide

theorem test_decode_frame_idle :
    decode 0b01000010#8 = .ok (.frIdleStart false) ∧ decode 0b01000011#8 = .ok (.frIdleStart true)
      ∧ decode 0b01000000#8 = .ok (.frIdleOther false)
      ∧ decode 0b01000001#8 = .ok (.frIdleOther true) := by decide

theorem test_decode_frame_packet :
    decode 0b01000101#8 = .ok (.frPktEnd false false) ∧ decode 0b01000111#8 = .ok (.frPktEnd false true)
      ∧ decode 0b01001101#8 = .ok (.frPktEnd true false)
      ∧ decode 0b01001111#8 = .ok (.frPktEnd true true)
      ∧ decode 0b01000100#8 = .ok (.frPktAppend false)
      ∧ decode 0b01000110#8 = .ok (.frPktAppend true)
      ∧ decode 0b01001100#8 = .ok (.frPktFull false)
      ∧ decode 0b01001110#8 = .ok (.frPktFull true) := by decide

theorem test_decode_out :
    decode 0b01100000#8 = .ok (.outByte false) ∧ decode 0b01100010#8 = .ok (.outByte true)
      ∧ decode 0b01100011#8 = .ok .outEmpty := by decide

theorem test_decode_func :
    decode 0b10100000#8 = .ok .peak ∧ decode 0b10100001#8 = .ok .bin2hz
      ∧ decode 0b10100010#8 = .ok .quant ∧ decode 0b10100011#8 = .ok .hsStart
      ∧ decode 0b10100100#8 = .ok .hsEnd ∧ decode 0b10100101#8 = .ok .classify
      ∧ decode 0b10100110#8 = .ok .evenidx ∧ decode 0b10100111#8 = .ok .assemble
      ∧ decode 0b10101000#8 = .ok .finalize ∧ decode 0b10101001#8 = .ok .dispatch := by decide

/-- A table word placed where `step` takes it runs as the first operation after reset. -/
theorem test_withFetchWord_end :
    ((nextOf (step (State.reset.withFetchWord 8 0x45))).map fun t => t.obs.words) = some [0x45#8] := by
  decide +kernel

/-! ### Rounding and list primitives (00_scope.md R10, R11) -/

/-- The spot checks of 95_test_vectors.md section 2.2. -/
theorem test_rne_spot_checks :
    rne (-1) 2 = 0 ∧ rne 1 2 = 0 ∧ rne 3 2 = 2 ∧ rne (-3) 2 = -2 ∧ rne 5 2 = 2 ∧ rne 7 3 = 2
      ∧ rne (-7) 3 = -2 := by decide

/-- V-SM-4, V-SM-5 and the bits around the sign. -/
theorem test_s16 : s16 0x8000#16 = -32768 ∧ s16 0x7FFF#16 = 32767 ∧ s16 0xFFFF#16 = -1 := by decide

/-! ### SAMPLE and PEAK (40_spectral.md R51, R52) -/

/-- V-SM-1: three samples held, SAMPLE 5, N = 8. -/
theorem test_sample_joins :
    ((nextOf (exec .sample
        { machine ex2 { Core.reset with fbuf := [1, 2, 3] } 0 with
          ports := { Ports.idle with sData := 5 } })).map fun t => (t.st.fbuf, t.obs.words))
      = some ([1, 2, 3, 5], [0x20#8]) := by decide

/-- V-SM-2: the last sample of V-PK-4's frame empties the buffer and runs one frame step with k = 2. -/
theorem test_sample_completes :
    ((nextOf (exec .sample (machine ex2 { Core.reset with fbuf := frame2.take 7 } 0))).map fun t =>
        (t.st.fbuf, t.obs.words, t.obs.frames))
      = some ([], [0x20#8, 0x40#8], [{ bin := 2, cls := 0b00#2 }]) := by decide +kernel

/-- V-PK-7: the lowest of two equal maxima. -/
theorem test_peak_tie :
    unitView (machine ex2 Core.reset 0) (exec .peak
        { machine ex2 Core.reset 0 with
          args := { (State.resetWith ex2).args with frame := [3, -1, -1, -1, 3, -1, -1, -1] } })
      = some (.bin 2, true) := by decide +kernel

/-- V-PK-10: a DC offset beats the tone by a small margin. -/
theorem test_peak_dc_offset :
    unitView (machine ex2 Core.reset 0) (exec .peak
        { machine ex2 Core.reset 0 with
          args :=
            { (State.resetWith ex2).args with
              frame := [1500, 1207, 500, -207, -500, -207, 500, 1207] } })
      = some (.bin 0, true) := by decide +kernel

/-! ### The pure units (40_spectral.md R56; 41_quantizer.md; 42_assembler.md; 43_framer.md R74, R75) -/

/-- V-BZ-1 and V-BZ-3. -/
theorem test_bin2hz :
    unitView (machine Config.ex1 Core.reset 64) (exec .bin2hz (machine Config.ex1 Core.reset 64))
        = some (.hz 8192, true)
      ∧ unitView (machine ex2 Core.reset 4) (exec .bin2hz (machine ex2 Core.reset 4))
        = some (.hz 4000, true) := by decide +kernel

/-- V-BZ-4: an exact rational. -/
theorem test_bin2hz_rational : bin2hz overlapping 81721 = mkRat 81721 10 := by decide +kernel

/-- V-Q-1 to V-Q-14: bins, and their symbols. -/
theorem test_quant :
    ([0, 6, 8, 7, 10, 9, 12, 11, 38, 39, 40, 64, 68, 187].map fun k =>
        unitView (machine Config.ex1 Core.reset k) (exec .quant (machine Config.ex1 Core.reset k)))
      = [none, none, some 0, some 0, some 1, some 0, some 2, some 2, some 15, none, none, none, none,
          none].map fun q => some (.symbol q, true) := by decide +kernel

/-- V-Q-16: with `2*START_HZ` = `STEP_HZ` silence decodes as symbol 0. -/
theorem test_quant_silence_tie :
    (Config.elaborate { Config.ex1.toParams with startHz := 128 }).map (fun c => quant c 0)
      = some (some 0) := by decide +kernel

/-- V-HS-1, V-HS-2, and V-HS-3, V-HS-4, V-HS-7 at the edges of the window. -/
theorem test_hsStart :
    ([64, 63].map fun k =>
        unitView (machine Config.ex1 Core.reset k) (exec .hsStart (machine Config.ex1 Core.reset k)))
        = [some (.flag true, true), some (.flag false, true)]
      ∧ [81719, 81720, 81721, 82119, 82120, 82121].map (hsStart overlapping)
        = [false, false, true, true, false, false] := by decide +kernel

/-- V-HS-9, V-HS-10. -/
theorem test_hsEnd :
    ([68, 64].map fun k =>
        unitView (machine Config.ex1 Core.reset k) (exec .hsEnd (machine Config.ex1 Core.reset k)))
      = [some (.flag true, true), some (.flag false, true)] := by decide +kernel

/-- V-CL-1 to V-CL-3. -/
theorem test_classify :
    ([64, 68, 8].map fun k =>
        unitView (machine Config.ex1 Core.reset k) (exec .classify (machine Config.ex1 Core.reset k)))
      = [some (.cls 0b01#2, true), some (.cls 0b10#2, true), some (.cls 0b00#2, true)] := by
  decide +kernel

/-- V-CL-4: both windows at once. -/
theorem test_classify_both : classify overlapping 81960 = 0b11#2 := by decide +kernel

/-- V-EV-1, and V-EV-2's odd length. -/
theorem test_evenidx :
    ([[8, 8, 10, 10], [1, 2, 3], []].map fun l =>
        let s := { machine Config.ex1 Core.reset 0 with args := { State.reset.args with bins := l } }
        unitView s (exec .evenidx s))
      = [some (.bins [8, 10], true), some (.bins [1, 3], true), some (.bins [], true)] := by decide

/-- V-AS-1, V-AS-6, V-AS-8, V-AS-14, V-AS-15, V-AS-19. -/
theorem test_assemble :
    ([(4, [0, 1]), (3, [1, 2, 3, 4, 5, 6, 7, 0]), (12, [0xABC, 0xDEF]), (3, [5, 5, 5]), (10, [0x3FF]),
        (4, [0x1F, 0])].map fun (w, cs) =>
        let s :=
          { machine Config.ex1 Core.reset 0 with
            args := { State.reset.args with width := w, chunks := cs } }
        unitView s (exec .assemble s))
      = [[0x01#8], [0x29, 0xCB, 0xB8], [0xAB, 0xCD, 0xEF], [0xB6], [0xFF], [0xF0]].map fun bs =>
          some (.bytes bs, true) := by decide +kernel

/-- V-FN-1, V-FN-3, V-FN-4, V-FN-5, V-FN-6. -/
theorem test_finalize :
    ([[8, 8, 10, 10], [8, 8, 0, 0, 10, 10], [8, 8, 40, 40, 10, 10, 12, 12], [64, 30, 12, 12, 38, 38],
        [8, 99, 10]].map fun l =>
        let s := { machine Config.ex1 Core.reset 0 with args := { State.reset.args with bins := l } }
        unitView s (exec .finalize s))
      = [[0x01#8], [0x01], [0x01], [0x2F], [0x01]].map fun bs => some (.bytes bs, true) := by
  decide +kernel

/-- V-DS-3, and V-DS-5: exactly fills. -/
theorem test_dispatch_fits :
    framerView (exec .dispatch
        { machine Config.ex1 Core.reset 0 with
          args := { State.reset.args with bytes := [0x12, 0x34, 0x56] } })
        = some (.idle, [], [.byte 0x12 false, .byte 0x34 false, .byte 0x56 true], 0x0000#16)
      ∧ framerView (exec .dispatch
          { machine (ex1With 64 .hold 3 (by decide)) (coreWith .idle [] [.byte 0x12 true]) 0 with
            args := { State.reset.args with bytes := [0xAB, 0xCD] } })
        = some (.idle, [], [.byte 0x12 true, .byte 0xAB false, .byte 0xCD true], 0x0000#16) := by
  decide

/-- V-DS-4 and V-DS-6: one beat too many. -/
theorem test_dispatch_overflows :
    framerView (exec .dispatch
        { machine (ex1With 64 .hold 2 (by decide)) (coreWith .idle [] [.byte 0x12 true]) 0 with
          args := { State.reset.args with bytes := [0xAB, 0xCD] } })
        = some (.idle, [], [.byte 0x12 true], 0x0240#16)
      ∧ framerView (exec .dispatch
          { machine (ex1With 64 .hold 1 (by decide)) (coreWith .idle [] [.byte 0x12 true]) 0 with
            args := { State.reset.args with bytes := [] } })
        = some (.idle, [], [.byte 0x12 true], 0x0240#16) := by decide

/-! ### The framer rows (43_framer.md R69 to R73) -/

/-- V-FR-3. -/
theorem test_frIdleStart :
    framerView (exec (.frIdleStart false) (machine Config.ex1 Core.reset 64))
      = some (.inPkt, [], [], 0x0004#16) := by decide +kernel

/-- V-FR-1 and V-FR-2, and the report of V-FR-2. -/
theorem test_frIdleOther :
    framerView (exec (.frIdleOther false) (machine Config.ex1 Core.reset 8))
        = some (.idle, [], [], 0x0000#16)
      ∧ ((nextOf (exec (.frIdleOther true) (machine Config.ex1 Core.reset 68))).map fun t =>
          (t.obs.words, t.frOut)) = some ([0x41#8], some { bin := 68, cls := 0b10#2 }) := by
  decide +kernel

/-- V-FR-4 and V-FR-5: a repeated start tone is collected. -/
theorem test_frPktAppend :
    framerView (exec (.frPktAppend false) (machine Config.ex1 (coreWith .inPkt [] []) 8))
        = some (.inPkt, [8], [], 0x0004#16)
      ∧ framerView (exec (.frPktAppend true) (machine Config.ex1 (coreWith .inPkt [8] []) 64))
        = some (.inPkt, [8, 64], [], 0x0004#16) := by decide +kernel

/-- V-FR-9 and V-FR-12. -/
theorem test_frPktFull :
    framerView (exec (.frPktFull false) (machine hold4 (coreWith .inPkt [10, 10, 12, 12] []) 8))
        = some (.inPkt, [10, 10, 12, 12], [], 0x01AC#16)
      ∧ framerView (exec (.frPktFull false) (machine abort4 (coreWith .inPkt [10, 10, 12, 12] []) 8))
        = some (.idle, [], [], 0x01A0#16) := by decide +kernel

/-- V-FR-10: nothing is recorded again, even with another code in `last_err`. -/
theorem test_frPktFull_once :
    ((nextOf (exec (.frPktFull false)
        (machine hold4
          { coreWith .inPkt [10, 10, 12, 12] [] with povf := true, errPktovf := true, lastErr := 4 }
          12))).map fun t => (t.st.povf, t.st.pkt, t.st.lastErr))
      = some (true, [10, 10, 12, 12], 4#3) := by decide +kernel

/-- V-FR-6, and V-FR-13: exactly `PKT_MAX` bins is no overflow. -/
theorem test_frPktEnd :
    framerView (exec (.frPktEnd false false)
        (machine Config.ex1 (coreWith .inPkt [8, 8, 10, 10] []) 68))
        = some (.idle, [], [.byte 0x01 true], 0x0000#16)
      ∧ framerView (exec (.frPktEnd true false) (machine abort4 (coreWith .inPkt [8, 8, 10, 10] []) 68))
        = some (.idle, [], [.byte 0x01 true], 0x0000#16) := by decide +kernel

/-- V-FR-7: an empty packet; V-FR-11: an overflowed packet is dropped. -/
theorem test_frPktEnd_empty_overflowed :
    framerView (exec (.frPktEnd false false) (machine Config.ex1 (coreWith .inPkt [] []) 68))
        = some (.idle, [], [.empty], 0x0000#16)
      ∧ framerView (exec (.frPktEnd true false)
        (machine hold4
          { coreWith .inPkt [10, 10, 12, 12] [] with povf := true, errPktovf := true, lastErr := 3 }
          68))
      = some (.idle, [], [], 0x01A0#16) := by decide +kernel

/-! ### Control (44_control.md; 60_exceptions.md R88) -/

/-- V-CT-1. -/
theorem test_reset :
    ((nextOf (exec .reset
        (machine Config.ex1
          { coreWith .idle [] [.byte 0xA5 true] with run := .halted, errCap := true, lastErr := 2 }
          0))).map fun t => (statusWord t.st, t.st.outq, t.outPort.oValid))
      = some (0x0000#16, [], false) := by decide

/-- V-CT-4. -/
theorem test_capfail :
    ((nextOf (exec .capfail
        (machine Config.ex1 { coreWith .inPkt [10] [] with fbuf := [1, 2, 3] } 0))).map fun t =>
        (t.st.run, t.st.fbuf, t.st.pkt, statusWord t.st)) = some (.halted, [], [], 0x0112#16) := by
  decide

/-- V-CT-5: ignored in STOPPED. -/
theorem test_capfail_stopped :
    ((nextOf (exec .capfail (machine Config.ex1 { Core.reset with run := .stopped } 0))).map fun t =>
        (statusWord t.st, t.obs.words)) = some (0x0001#16, []) := by decide

/-- V-CT-2's STOP: the packet goes, the queue stays. -/
theorem test_stop :
    ((nextOf (exec .stop
        { machine Config.ex1 (coreWith .inPkt [8, 8, 10] [.empty]) 0 with
          ports := { Ports.idle with cancel := true } })).map fun t =>
        (t.st.run, t.st.pkt, t.st.outq, statusWord t.st)) = some (.stopped, [], [.empty], 0x0001#16) := by
  decide

/-- V-CT-7. -/
theorem test_outByte :
    ((nextOf (exec (.outByte false)
        (machine Config.ex1 (coreWith .idle [] [.byte 0x12 false, .byte 0x34 true]) 0))).map fun t =>
        (t.st.outq, t.obs.beats, t.obs.words))
      = some ([.byte 0x34 true], [.byte 0x12 false], [0x60#8]) := by decide

/-- V-CT-10: the queue drains in HALTED. -/
theorem test_outByte_halted :
    ((nextOf (exec (.outByte true)
        (machine Config.ex1 { coreWith .idle [] [.byte 0xA5 true] with run := .halted } 0))).map fun t =>
        (t.st.outq, t.st.run)) = some ([], .halted) := by decide

/-- V-CT-9. -/
theorem test_outEmpty :
    ((nextOf (exec .outEmpty (machine Config.ex1 (coreWith .idle [] [.empty]) 0))).map fun t =>
        (t.st.outq, t.obs.beats, t.obs.words)) = some ([], [.empty], [0x63#8]) := by decide

/-- V-CT-11 and V-CT-12: what one edge brings. -/
theorem test_edge_priority :
    cycleWords ⟨true, true, 0, true, true, true⟩ [.empty] = [0x00#8]
      ∧ cycleWords ⟨false, true, 0, true, false, false⟩ [] = [0x80#8]
      ∧ cycleWords ⟨false, true, 0, false, false, true⟩ [.byte 0x12 true] = [0x20#8, 0x62#8] := by
  decide

/-- The 10 bits of a beat (30_encoding.md R42). -/
theorem test_beatBits :
    beatBits (.byte 0xA5 false) = 0b0010100101#10 ∧ beatBits (.byte 0xA5 true) = 0b0110100101#10
      ∧ beatBits .empty = 0b1100000000#10 := by decide

/-- EX1's derived widths (00_scope.md R8): NB = 187 in 8 bits, 0 to 64 in 7, 0 to 16 in 5. -/
theorem test_widths :
    numBins Config.ex1 = 187 ∧ binWidth Config.ex1 = 8 ∧ pktWidth Config.ex1 = 7
      ∧ outqWidth Config.ex1 = 5 := by decide +kernel

/-- EX1 meets 70_reset_and_hazards.md R97 items 1 to 4, 6 and 8, as the rule's example and
95_test_vectors.md say. -/
theorem test_ex1_requirements :
    Config.ex1.silenceRejected ∧ Config.ex1.tonesApart ∧ Config.ex1.handshakeOutside 8192
      ∧ Config.ex1.handshakeOutside 8704 ∧ Config.ex1.handshakesApart ∧ Config.ex1.tonesInBand
      ∧ Config.ex1.queueFits ∧ Config.ex1.payloadWhole 3 := by
  unfold Config.silenceRejected Config.tonesApart Config.handshakeOutside Config.handshakesApart
    Config.tonesInBand Config.queueFits Config.payloadWhole
  decide +kernel

/-- EX1 meets R97 item 5. -/
theorem test_ex1_reachable : Config.ex1.tonesReachable := by
  unfold Config.tonesReachable
  decide +kernel

/-- P1's lines as steps (95_test_vectors.md section 3), and that `BYTES 0x01` is the same. -/
theorem test_tone_program :
    programSteps Config.ex1 [.reset, .packet [0, 1], .drain 1]
        = some [.reset, .frame 64, .frame 8, .frame 8, .frame 10, .frame 10, .frame 68, .drain 1]
      ∧ lineSteps Config.ex1 (.bytes [0x01]) = lineSteps Config.ex1 (.packet [0, 1]) := by
  decide +kernel

/-! ### Witnesses of the obligations' hypotheses -/

theorem witness_DecodeEncodeAgree : decode 0x4F#8 = .ok (.frPktEnd true true) := by decide

theorem witness_ReservedWordsRefused :
    ({ State.reset with pending := [0x48#8, 0x20#8] } : State).pending = 0x48#8 :: [0x20#8]
      ∧ EventWord.reserved 0x48#8 = true ∧ EventWord.reserved 0x4B#8 = true := ⟨rfl, by decide, by decide⟩

theorem witness_StepRunsDecodedOperation :
    (∃ s : State, s.pending = 0x20#8 :: [] ∧ decode 0x20#8 = .ok .sample ∧ s.booted = true)
      ∧ ∃ s : State, s.pending = 0x00#8 :: [] ∧ decode 0x00#8 = .ok .reset ∧ s.booted = false :=
  ⟨⟨{ State.reset with pending := [0x20#8] }, rfl, by decide, rfl⟩,
    ⟨{ State.reset with pending := [0x00#8], booted := false }, rfl, by decide, rfl⟩⟩

theorem witness_FirstStepMustBeReset :
    ∃ s : State, s.pending = 0x20#8 :: [] ∧ decode 0x20#8 = .ok .sample ∧ s.booted = false
      ∧ Instr.sample ≠ .reset :=
  ⟨{ State.reset with pending := [0x20#8], booted := false }, rfl, by decide, rfl, by decide⟩

/-- An edge that the environment drives, and the idle edge when no port values are left. -/
theorem witness_ClockEdgeQueuesEventsInOrder :
    (∃ s : State, s.pending = [] ∧ s.st.outq = [.byte 0x12 true]
        ∧ (⟨false, true, 5, true, false, true⟩ : Ports) = s.inputs.headD Ports.idle)
      ∧ ∃ s : State, s.pending = [] ∧ s.inputs = [] ∧ Ports.idle = s.inputs.headD Ports.idle :=
  ⟨⟨{ machine Config.ex1 (coreWith .idle [] [.byte 0x12 true]) 0 with
      inputs := [⟨false, true, 5, true, false, true⟩, Ports.idle] }, rfl, rfl, rfl⟩,
    ⟨State.reset, rfl, rfl, rfl⟩⟩

theorem witness_PortEventsNeverRefused :
    State.reset.booted = true ∧ State.reset.pending = [] := ⟨rfl, rfl⟩

theorem witness_NoStepWritesConfiguration : step State.reset = .next (nextCycle State.reset) := rfl

theorem witness_RecordWritesStickyBitAndCode :
    ErrCode.quantReject ≠ .captureFail ∧ ErrCode.quantReject ≠ .pktOverflow
      ∧ ErrCode.quantReject ≠ .outqOverflow := by decide

theorem witness_StickyBitsClearedOnlyByReset :
    ∃ s t : State, exec .sample s = .next t ∧ s.st.errCap = true ∧ s.st.errPktovf = true
      ∧ s.st.errOutqovf = true ∧ Instr.sample ≠ .reset :=
  ⟨machine ex2 { Core.reset with errCap := true, errPktovf := true, errOutqovf := true } 0, _, rfl, rfl,
    rfl, rfl, by decide⟩

/-- Each bit can be set: by CAPFAIL, by FR_PKT_FULL, by DISPATCH and by FR_PKT_END. -/
theorem witness_StickyBitsSetOnlyByTheirEvents :
    ((nextOf (exec .capfail State.reset)).map fun t => t.st.errCap) = some true
      ∧ ((nextOf (exec (.frPktFull false) (machine hold4 (coreWith .inPkt [8, 8, 8, 8] []) 8))).map
          fun t => t.st.errPktovf) = some true
      ∧ ((nextOf (exec .dispatch
          (machine (ex1With 64 .hold 1 (by decide)) (coreWith .idle [] [.empty]) 0))).map
          fun t => t.st.errOutqovf) = some true
      ∧ ((nextOf (exec (.frPktEnd false false)
          (machine (ex1With 64 .hold 1 (by decide)) (coreWith .inPkt [] [.empty]) 68))).map
          fun t => t.st.errOutqovf) = some true := by decide +kernel

/-- The SAMPLE that completes a frame: on a full packet, and the end frame on a full queue (V-PK-4's and
V-PK-6's frames). -/
theorem witness_StickyBitsSetOnlyByTheirEvents_sample :
    ((nextOf (exec .sample
        (machine ex2 { coreWith .inPkt (List.replicate 64 1) [] with fbuf := frame2.take 7 } 0))).map
        fun t => t.st.errPktovf) = some true
      ∧ ((nextOf (exec .sample
          { machine ex2
              { coreWith .inPkt [] (List.replicate 16 .empty) with
                fbuf := [1000, -1000, 1000, -1000, 1000, -1000, 1000] } 0 with
            ports := { Ports.idle with sData := -1000 } })).map
          fun t => t.st.errOutqovf) = some true := by decide +kernel

theorem witness_PortsShowHeadBeatAndReport :
    (machine Config.ex1 (coreWith .idle [] [.byte 0xFF true]) 0).st.outq = .byte 0xFF true :: []
      ∧ (machine Config.ex1 (coreWith .idle [] [.empty]) 0).st.outq = .empty :: []
      ∧ ({ State.reset with frOut := some ⟨187, 0⟩ } : State).frOut = some ⟨187, 0⟩
      ∧ State.reset.frOut = none := ⟨rfl, rfl, rfl, rfl⟩

theorem witness_HeadBeatHeldUntilTaken :
    ∃ s t : State, s.st.outq = .byte 0x12 true :: [] ∧ exec .dispatch s = .next t
      ∧ Instr.dispatch ≠ .reset ∧ Instr.dispatch ≠ .outEmpty
      ∧ ∀ last, Instr.dispatch ≠ .outByte last :=
  ⟨machine Config.ex1 (coreWith .idle [] [.byte 0x12 true]) 0, _, rfl, rfl, by decide, by decide,
    by decide⟩

/-- A sample in each terminal state. -/
theorem witness_SampleIgnoredOutsideRun :
    ({ Core.reset with run := .stopped } : Core).run ≠ .run
      ∧ ({ Core.reset with run := .halted } : Core).run ≠ .run := by decide

/-- The last sample but one of a frame, and none held yet. -/
theorem witness_SampleJoinsFrame :
    (machine ex2 { Core.reset with fbuf := frame2.take 6 } 0).st.run = .run
      ∧ (frame2.take 6).length + 1 < ex2.frameN ∧ ([] : List Sample).length + 1 < ex2.frameN := by
  decide

theorem witness_SampleCompletesFrame :
    ∃ (s : State) (k : ℕ), s.st.run = .run ∧ s.st.fbuf.length + 1 = s.cfg.frameN
      ∧ s.ports.cancel = false ∧ k = peakBin s.cfg (s.st.fbuf ++ [s.ports.sData]) :=
  ⟨machine ex2 { Core.reset with fbuf := frame2.take 7 } 0, _, rfl, rfl, rfl, rfl⟩

theorem witness_SampleCompletesFrameThenStops :
    ∃ (s : State) (k : ℕ), s.st.run = .run ∧ s.st.fbuf.length + 1 = s.cfg.frameN
      ∧ s.ports.cancel = true ∧ k = peakBin s.cfg (s.st.fbuf ++ [s.ports.sData]) :=
  ⟨{ machine ex2 { Core.reset with fbuf := frame2.take 7 } 0 with
      ports := { Ports.idle with cancel := true } }, _, rfl, rfl, rfl, rfl⟩

/-- Both sides of CAPFAIL's condition. -/
theorem witness_CapfailHaltsOnce :
    State.reset.st.run = .run ∧ ({ Core.reset with run := .halted } : Core).run ≠ .run := by decide

theorem witness_StopDiscardsPacketKeepsQueue :
    ∃ s : State, s.st.run = .run ∧ s.st.fbuf = [] ∧ s.ports.cancel = true ∧ s.st.pkt = [8]
      ∧ s.st.outq = [.empty] :=
  ⟨{ machine Config.ex1 (coreWith .inPkt [8] [.empty]) 0 with
      ports := { Ports.idle with cancel := true } }, rfl, rfl, rfl, rfl, rfl⟩

theorem witness_CancelReadOnlyAtFrameStep :
    (machine ex2 { Core.reset with fbuf := frame2.take 6 } 0).st.fbuf.length + 1 < ex2.frameN := by
  decide

theorem witness_OutByteTakesHead :
    (machine Config.ex1 { coreWith .idle [] [.byte 0x34 true] with run := .stopped } 0).st.outq
      = .byte 0x34 true :: [] := rfl

theorem witness_OutEmptyTakesMarker :
    (machine Config.ex1 (coreWith .idle [] [.empty, .byte 0 true]) 0).st.outq
      = .empty :: [.byte 0 true] := rfl

theorem witness_TerminalStatesLeftOnlyByReset :
    ∃ s t : State, s.st.run ≠ .run ∧ s.st.outq = .empty :: [] ∧ exec .dispatch s = .next t :=
  ⟨machine Config.ex1 { coreWith .idle [] [.empty] with run := .halted } 0, _, by decide, rfl, rfl⟩

theorem witness_QueueIsFifo :
    ∃ s t : State, exec .outEmpty s = .next t ∧ Instr.outEmpty ≠ .reset :=
  ⟨machine Config.ex1 (coreWith .idle [] [.empty]) 0, _, rfl, by decide⟩

theorem witness_IdleStartOpensPacket :
    ∃ s : State, s.atFrame ∧ s.st.fr = .idle ∧ hsStart s.cfg s.args.bin = true := by
  refine ⟨machine Config.ex1 Core.reset 64, ?_, rfl, by decide +kernel⟩
  unfold State.atFrame
  decide

/-- With no match at all, and with the end tone alone. -/
theorem witness_IdleOtherChangesNothing :
    (∃ s : State, s.atFrame ∧ s.st.fr = .idle ∧ hsStart s.cfg s.args.bin = false)
      ∧ ∃ s : State, s.atFrame ∧ hsStart s.cfg s.args.bin = false ∧ hsEnd s.cfg s.args.bin = true := by
  refine ⟨⟨machine Config.ex1 Core.reset 187, ?_, rfl, by decide +kernel⟩,
    ⟨machine Config.ex1 Core.reset 68, ?_, by decide +kernel, by decide +kernel⟩⟩ <;>
  · unfold State.atFrame
    decide

/-- One bin below the packet bound. -/
theorem witness_PktAppendCollectsBin :
    ∃ s : State, s.atFrame ∧ s.st.fr = .inPkt ∧ hsEnd s.cfg s.args.bin = false
      ∧ s.st.pkt.length < s.cfg.pktMax := by
  refine ⟨machine hold4 (coreWith .inPkt [8, 8, 8] []) 8, ?_, rfl, by decide +kernel, by decide⟩
  unfold State.atFrame
  decide

/-- Both policies, and HOLD before and after the overflow. -/
theorem witness_PktFullHoldsOrAborts :
    ∀ p ∈ [(hold4, false), (hold4, true), (abort4, false)],
      let s := machine p.1 { coreWith .inPkt [8, 8, 8, 8] [] with povf := p.2 } 8
      (s.st.run = .run ∧ s.st.fbuf = [] ∧ s.args.bin ≤ numBins s.cfg) ∧ s.st.fr = .inPkt
        ∧ hsEnd s.cfg s.args.bin = false ∧ s.st.pkt.length = s.cfg.pktMax := by decide +kernel

/-- A packet below the bound, one at it, and one that overflowed. -/
theorem witness_PktEndDispatchesAndReturnsToIdle :
    ∀ p ∈ [([8, 8, 8], false), ([8, 8, 8, 8], false), ([8, 8, 8, 8], true)],
      let s := machine hold4 { coreWith .inPkt p.1 [] with povf := p.2 } 68
      (s.st.run = .run ∧ s.st.fbuf = [] ∧ s.args.bin ≤ numBins s.cfg) ∧ s.st.fr = .inPkt
        ∧ hsEnd s.cfg s.args.bin = true := by decide +kernel

/-- Every clause: away from a frame boundary, another frame's word, heads of the other kind, STOP with
`cancel` low. -/
theorem witness_WordsNotProducedAreRefused :
    (machine ex2 { Core.reset with fbuf := [1] } 0).st.fbuf ≠ []
      ∧ encode (.frIdleStart false) ≠ frameStepWord ex2 0 Core.reset
      ∧ refusedFor (exec (.outByte true) (machine ex2 (coreWith .idle [] [.byte 1 false]) 0))
          (.notProduced 0x62#8) = true
      ∧ refusedFor (exec .outEmpty State.reset) (.notProduced 0x63#8) = true
      ∧ State.reset.ports.cancel = false := by decide +kernel

theorem witness_PeakUnitAnswersPeakBin :
    State.reset.args.frame.length = State.reset.cfg.frameN
      ∧ ({ State.reset with args := { State.reset.args with frame := [1] } } : State).args.frame.length
        ≠ State.reset.cfg.frameN := by decide +kernel

theorem witness_PeakIsLowestGreatestBin :
    (State.resetWith ex2).args.frame.length = ex2.frameN ∧ ex2.peakEps = 0 := by decide

/-- V-PK-4's frame: bin 2 has the greatest power, by the exact comparison. -/
theorem frame2_peak :
    ((List.range 5).all fun j =>
      decide (j = 2) || powGt 8 (lowCosines 8) (autocorrList 8 frame2) 1 2 1 j) = true := by
  decide +kernel

theorem ex2_values : ex2.frameN = 8 ∧ ex2.peakEps = 0 ∧ numBins ex2 = 4 := by decide

/-- A frame with a clear peak: bin 2 of V-PK-4 (40_spectral.md R54 (c)). -/
theorem witness_PeakFunctionConforms :
    frame2.length = ex2.frameN ∧ 2 ≤ numBins ex2 ∧ ∀ j ≤ numBins ex2, j ≠ 2 →
      (1 + (ex2.peakEps : ℝ)) * dftPower ex2.frameN frame2 j < dftPower ex2.frameN frame2 2 := by
  obtain ⟨hN, he, hb⟩ := ex2_values
  refine ⟨hN.symm ▸ rfl, hb.symm ▸ by norm_num, ?_⟩
  rw [hN, he, hb]
  intro j hj hne
  have hk := List.all_eq_true.mp frame2_peak j (List.mem_range.mpr (by omega))
  rw [Bool.or_eq_true, decide_eq_true_eq] at hk
  have h := (powGt_iff (by norm_num) frame2 1 2 1 j).mp (hk.resolve_left hne)
  rw [Nat.cast_one, one_mul, one_mul] at h
  rw [Rat.cast_zero, add_zero, one_mul]
  exact h

/-- V-PK-4's frame as the operand, and the signed index at the last unsigned bin, NB, and just above. -/
theorem witness_PeakAgreesWithFullSpectrum :
    ({ State.resetWith ex2 with args := { (State.resetWith ex2).args with frame := frame2 } }
        : State).args.frame.length = ex2.frameN
      ∧ ex2.peakEps = 0 ∧ signedBin 8 4 = 4 ∧ signedBin 8 5 = -3 ∧ signedBin 5 3 = -2 := by decide

/-- The lowest and the highest bin. -/
theorem witness_Bin2HzIsExactFrequency :
    (machine Config.ex1 Core.reset 0).args.bin ≤ numBins Config.ex1
      ∧ (machine Config.ex1 Core.reset 187).args.bin ≤ numBins Config.ex1 := by decide

/-- An exact half on each side of an even integer. -/
theorem witness_RneNearestTiesToEven :
    2 * |(5 : ℤ) - rne 5 2 * 2| = 2 ∧ 2 * |(-3 : ℤ) - rne (-3) 2 * 2| = 2 := by decide

/-- Both sides of the frequency-0 rule. -/
theorem witness_SilenceRejectedExactlyWhen :
    quant Config.ex1 0 = none ∧ quant overlapping 0 = none
      ∧ (Config.elaborate { Config.ex1.toParams with startHz := 128 }).map (fun c => (quant c 0).isSome)
        = some true := by decide +kernel

theorem witness_ClassifyPairsPredicates : classify overlapping 81960 = 0b11#2 := test_classify_both

theorem witness_WindowsOutsideCellsKeepTonesApart :
    Config.ex1.handshakeOutside Config.ex1.hsStartHz ∧ Config.ex1.handshakeOutside Config.ex1.hsEndHz := by
  unfold Config.handshakeOutside
  decide +kernel

/-- The first and the last byte of V-AS-6. -/
theorem witness_AssembleIsBigEndianBitstream :
    0 < (assemble 3 [1, 2, 3, 4, 5, 6, 7, 0]).length ∧ 2 < (assemble 3 [1, 2, 3, 4, 5, 6, 7, 0]).length
      ∧ ¬ 3 < (assemble 3 [1, 2, 3, 4, 5, 6, 7, 0]).length := by decide +kernel

theorem witness_ExpandOfAssemble :
    0 < 3 ∧ (∀ c ∈ [1, 2, 3, 4, 5, 6, 7, 0], c < 2 ^ 3) ∧ [1, 2, 3, 4, 5, 6, 7, 0].length * 3 % 8 = 0 := by
  decide

theorem witness_FinalizeDemodulatesEvenBins :
    ((List.range ((([64, 30, 12, 12, 38] : List ℕ).length + 1) / 2)).map fun n =>
        [64, 30, 12, 12, 38].getD (2 * n) 0).filterMap (quant Config.ex1) = [2, 15] := by decide +kernel

theorem witness_FinalizeIgnoresOddPositions :
    [8, 99, 10].length = [8, 0, 10].length ∧ ∀ n : ℕ, [8, 99, 10][2 * n]? = [8, 0, 10][2 * n]? := by
  refine ⟨rfl, fun n => ?_⟩
  rcases n with _ | _ | n
  · rfl
  · rfl
  · simp [show 2 * (n + 1 + 1) = 2 * n + 1 + 1 + 1 + 1 by ring]

/-- A full packet with an empty queue, in a state that meets the invariants. -/
theorem fullPacket_inv : (coreWith .inPkt (List.replicate 64 8) []).Inv Config.ex1 where
  fbuf_lt := by decide
  pkt_le := by decide
  pkt_bins := by decide
  outq_le := by decide
  idle := by decide
  terminal := by decide
  overflowed := by decide
  streams := rfl
  lastErr := .inl rfl

theorem witness_PacketFitsEmptyQueue :
    Config.ex1.queueFits ∧ (coreWith .inPkt (List.replicate 64 8) []).Inv Config.ex1
      ∧ (coreWith .inPkt (List.replicate 64 8) []).outq = []
      ∧ (coreWith .inPkt (List.replicate 64 8) []).povf = false :=
  ⟨test_ex1_requirements.2.2.2.2.2.2.1, fullPacket_inv, rfl, rfl⟩

theorem witness_StepKeepsInvariant :
    ∃ s : State, s.Inv ∧ (nextOf (step s)).map (fun t => t.obs.words) = some [0x44#8] := by
  refine ⟨{ machine Config.ex1 (coreWith .inPkt [8] []) 8 with pending := [0x44#8] }, ⟨?_, ?_, ?_⟩,
    by decide +kernel⟩
  · exact
      { fbuf_lt := by decide
        pkt_le := by decide
        pkt_bins := by decide
        outq_le := by decide
        idle := by decide
        terminal := by decide
        overflowed := by decide
        streams := rfl
        lastErr := .inl rfl }
  · simp [machine, State.resetWith]
  · simp [machine, State.resetWith]

theorem witness_PacketDecodesToItsSymbols :
    ex2.tonesApart ∧ (packetSteps ex2 [0, 1, 0, 1, 0, 1, 0, 1]).isSome = true
      ∧ 2 * [0, 1, 0, 1, 0, 1, 0, 1].length ≤ ex2.pktMax
      ∧ (beatsOfStream (assemble ex2.bits [0, 1, 0, 1, 0, 1, 0, 1])).length ≤ ex2.outqDepth
      ∧ (∀ n ∈ [0, 1, 0, 1, 0, 1, 0, 1], n < 2 ^ ex2.bits)
      ∧ (State.resetWith ex2).st = Core.reset := by
  unfold Config.tonesApart
  decide +kernel

/-- A packet with a tone that is no symbol: in EX2 SYM 2 is the start tone, bin 3, and not the end tone. -/
theorem witness_PacketDecodesToItsSymbols_noSymbol :
    (packetSteps ex2 [0, 2, 1]).isSome = true
      ∧ (∀ k ≤ numBins ex2, k * ex2.sampleRateHz = symHz ex2 2 * ex2.frameN → hsEnd ex2 k = false)
      ∧ [0, 2, 1].filter (· < 2 ^ ex2.bits) = [0, 1] := by decide +kernel

/-- R50 makes SYM 16 of EX1 the tone of 5120 Hz, bin 40: it is sent, and QUANT drops it (V-Q-11). -/
theorem test_tone_sym_beyond_band :
    lineSteps Config.ex1 (.sym 16) = some [.frame 40]
      ∧ lineSteps Config.ex1 (.packet [16])
        = some [.frame 64, .frame 40, .frame 40, .frame 68] := by decide +kernel

/-- Every clause; the last SYM of EX1 whose tone has a bin (89, bin 186), the next, and a bin just above
NB. -/
theorem witness_IllegalToneLinesRefused :
    ToneLine.hs ≠ .reset ∧ lineSteps Config.ex1 (.tone 1000) = none
      ∧ lineSteps Config.ex1 (.frame 188) = none ∧ (lineSteps Config.ex1 (.frame 187)).isSome = true
      ∧ lineSteps Config.ex1 (.sym 90) = none ∧ lineSteps Config.ex1 (.sym 89) = some [.frame 186]
      ∧ lineSteps Config.ex1 (.packet [1, 90]) = none
      ∧ (Config.elaborate { Config.ex1.toParams with bits := 3 }).map (fun c =>
          lineSteps c (.bytes [0x01])) = some none := by decide +kernel

end Sys2Proof.Tests
end

section
/-!
PROOF. 00_scope.md: the rounding `rne` of R10, and the ranges of R7 that an elaboration checks
(70_reset_and_hazards.md R98).
-/
namespace Sys2Proof.Machine

/-! ### Rounding (00_scope.md R10) -/

/-- The error of rounding down is the remainder. -/
theorem sub_mul_eq_emod_of_eq_ediv {num den q : ℤ} (hq : q = num / den) :
    num - q * den = num % den := by
  rw [hq, Int.emod_def, mul_comm]

/-- The error of rounding up is the remainder less the denominator. -/
theorem sub_mul_eq_emod_sub_of_eq_ediv_add_one {num den q : ℤ} (hq : q = num / den + 1) :
    num - q * den = num % den - den := by
  rw [hq, add_one_mul, ← sub_sub, sub_mul_eq_emod_of_eq_ediv rfl]

/-- What `rne` can answer, by where the remainder lies about half the denominator. -/
theorem rne_cases (num den : ℤ) :
    (2 * (num % den) < den ∧ rne num den = num / den)
      ∨ (den < 2 * (num % den) ∧ rne num den = num / den + 1)
      ∨ (2 * (num % den) = den ∧ Even (rne num den)
          ∧ (rne num den = num / den ∨ rne num den = num / den + 1)) := by
  simp only [rne, sub_mul_eq_emod_of_eq_ediv rfl]
  split
  next hbelow => exact .inl ⟨hbelow, rfl⟩
  next hnotBelow =>
    split
    next habove => exact .inr (.inl ⟨habove, rfl⟩)
    next hnotAbove =>
      have hhalf : 2 * (num % den) = den := by omega
      split
      next heven => exact .inr (.inr ⟨hhalf, Int.even_iff.mpr heven, .inl rfl⟩)
      next hodd => exact .inr (.inr ⟨hhalf, Int.even_iff.mpr (by omega), .inr rfl⟩)

/-- `rne` is never further than half the denominator off. -/
theorem two_mul_abs_sub_rne_le {num den : ℤ} (hden : 0 < den) :
    2 * |num - rne num den * den| ≤ den := by
  have hnonneg : 0 ≤ num % den := Int.emod_nonneg num hden.ne'
  have hlt : num % den < den := Int.emod_lt_of_pos num hden
  obtain ⟨hbelow, hq⟩ | ⟨habove, hq⟩ | ⟨hhalf, -, hq | hq⟩ := rne_cases num den
  · rw [sub_mul_eq_emod_of_eq_ediv hq, abs_of_nonneg hnonneg]; omega
  · rw [sub_mul_eq_emod_sub_of_eq_ediv_add_one hq, abs_of_nonpos (by omega)]; omega
  · rw [sub_mul_eq_emod_of_eq_ediv hq, abs_of_nonneg hnonneg]; omega
  · rw [sub_mul_eq_emod_sub_of_eq_ediv_add_one hq, abs_of_nonpos (by omega)]; omega

/-- At an exact half `rne` is even. -/
theorem even_rne_of_half {num den : ℤ} (hden : 0 < den)
    (herr : 2 * |num - rne num den * den| = den) : Even (rne num den) := by
  have hnonneg : 0 ≤ num % den := Int.emod_nonneg num hden.ne'
  have hlt : num % den < den := Int.emod_lt_of_pos num hden
  obtain ⟨hbelow, hq⟩ | ⟨habove, hq⟩ | ⟨-, heven, -⟩ := rne_cases num den
  · rw [sub_mul_eq_emod_of_eq_ediv hq, abs_of_nonneg hnonneg] at herr
    omega
  · rw [sub_mul_eq_emod_sub_of_eq_ediv_add_one hq, abs_of_nonpos (by omega)] at herr
    omega
  · exact heven

/-- Settles O41: the error bound, and the parity at an exact half. -/
theorem rneNearestTiesToEven : Obligations.RneNearestTiesToEven :=
  fun _ _ hden => ⟨two_mul_abs_sub_rne_le hden, even_rne_of_half hden⟩

/-! ### Elaboration (70_reset_and_hazards.md R98) -/

/-- The check of R98 is the conjunction of the ranges of R7. -/
theorem params_inRange_iff (p : Params) :
    p.inRange = true ↔
      1 ≤ p.sampleRateHz ∧ 2 ≤ p.frameN ∧ 1 ≤ p.stepHz ∧ 1 ≤ p.bits ∧ p.bits ≤ 16 ∧ 1 ≤ p.pktMax
        ∧ 1 ≤ p.outqDepth ∧ 0 ≤ p.peakEps ∧ p.frameLat < p.frameN := by
  simp only [Params.inRange, Bool.and_eq_true, decide_eq_true_eq, Rat.num_nonneg, and_assoc]

/-- An elaboration answers a configuration of the given parameters exactly when the check of R98
passes. -/
theorem exists_elaborate_eq_some_iff (p : Params) :
    (∃ c : Config, Config.elaborate p = some c ∧ c.toParams = p) ↔ p.inRange = true := by
  constructor
  · rintro ⟨c, -, rfl⟩
    exact c.inRange
  · intro hrange
    exact ⟨⟨p, hrange⟩, dif_pos hrange, rfl⟩

/-- Settles O11: the fixed tolerance, and elaboration through the check of R98. -/
theorem elaborationChecksRanges : Obligations.ElaborationChecksRanges :=
  ⟨rfl, fun p => (exists_elaborate_eq_some_iff p).trans (params_inRange_iff p)⟩

end Sys2Proof.Machine
end

section
/-!
PROOF. 10_state.md: what `exec` of an operation can leave (`Effect`), and from it the configuration
(R23), the invariants (R18, R19), the head beat (R16) and the sticky bits (R17, R22); the clock edge
(R14); the state after RESET (R25), the status word and the output ports (R15 to R17).
-/
namespace Sys2Proof.Machine

/-! ### The framer's transition (30_encoding.md R44), case by case -/

/-- What holds of every row of the framer table under its condition holds of the transition. -/
theorem framerTable_rows {P : Core → Prop} (cfg : Config) (k : ℕ) (st : Core)
    (start : st.fr = .idle → hsStart cfg k = true → P (rowIdleStart st))
    (other : st.fr = .idle → hsStart cfg k = false → P st)
    (ended : st.packetEndsAt cfg k → P (packetEnded cfg st))
    (full : st.packetFullAt cfg k → P (packetOverflowed cfg st))
    (append : st.fr = .inPkt → hsEnd cfg k = false → st.pkt.length ≠ cfg.pktMax →
      P (pktAppend k st)) : P (framerTable cfg k st) := by
  unfold framerTable
  split
  next hidle =>
    split
    next hstart => exact start hidle hstart
    next hstart => exact other hidle (by simpa using hstart)
  next hin =>
    split
    next hend => exact ended ⟨hin, hend⟩
    next hend =>
      have hend' : hsEnd cfg k = false := by simpa using hend
      split
      next hfull => exact full ⟨hin, hend', hfull⟩
      next hroom => exact append hin hend' hroom

/-- The end handshake closes the packet after its stream is handed over or, once it overflowed,
dropped. -/
theorem packetEnded_eq_closePacket (cfg : Config) (st : Core) :
    packetEnded cfg st =
      closePacket (if st.povf then st else streamHandedOver cfg (finalize cfg st.pkt) st) := rfl

theorem packetOverflowed_fbuf (cfg : Config) (st : Core) :
    (packetOverflowed cfg st).fbuf = st.fbuf := by
  unfold packetOverflowed
  split <;> rfl

theorem packetOverflowed_outq (cfg : Config) (st : Core) :
    (packetOverflowed cfg st).outq = st.outq := by
  unfold packetOverflowed
  split <;> rfl

theorem streamHandedOver_fbuf (cfg : Config) (bs : List Byte) (st : Core) :
    (streamHandedOver cfg bs st).fbuf = st.fbuf := by
  unfold streamHandedOver
  split <;> rfl

/-- The framer does not touch the frame buffer. -/
theorem framerTable_fbuf (cfg : Config) (k : ℕ) (st : Core) :
    (framerTable cfg k st).fbuf = st.fbuf := by
  apply framerTable_rows (P := fun c => c.fbuf = st.fbuf)
  case start => exact fun _ _ => rfl
  case other => exact fun _ _ => rfl
  case ended =>
    intro _
    rw [packetEnded_eq_closePacket, closePacket_fbuf, apply_ite Core.fbuf, streamHandedOver_fbuf,
      ite_self]
  case full => exact fun _ => packetOverflowed_fbuf ..
  case append => exact fun _ _ _ => rfl

/-! ### A frame step, field by field -/

@[simp] theorem afterFrameWord_obs_frames (s : State) (ew : EventWord) (k : ℕ) (c : Core) :
    (afterFrameWord s ew k c).obs.frames
      = s.obs.frames ++ [{ bin := k, cls := classify s.cfg k }] := rfl

/-- The record a frame step leaves: the framer's transition, then STOP if `cancel` = 1. -/
theorem frameStep_st (k : ℕ) (cancel : Bool) (s : State) :
    (frameStep k cancel s).st =
      if cancel then enterTerminal .stopped (framerTable s.cfg k s.st)
      else framerTable s.cfg k s.st := by
  rw [frameStep_eq]
  cases cancel <;> rfl

theorem frameStep_errCap (k : ℕ) (cancel : Bool) (s : State) :
    (frameStep k cancel s).st.errCap = (framerTable s.cfg k s.st).errCap := by
  rw [frameStep_st]
  cases cancel <;> rfl

theorem frameStep_errPktovf (k : ℕ) (cancel : Bool) (s : State) :
    (frameStep k cancel s).st.errPktovf = (framerTable s.cfg k s.st).errPktovf := by
  rw [frameStep_st]
  cases cancel <;> rfl

theorem frameStep_errOutqovf (k : ℕ) (cancel : Bool) (s : State) :
    (frameStep k cancel s).st.errOutqovf = (framerTable s.cfg k s.st).errOutqovf := by
  rw [frameStep_st]
  cases cancel <;> rfl

/-! ### What an operation can leave -/

/-- The state in which the frame step of a completed frame runs: the last sample's word taken, the
frame buffer emptied (40_spectral.md R51). -/
def State.atBoundary (s : State) : State := logWord 0x20#8 (setCore (fbufClear s.st) s)

/-- The function units that only answer their caller (30_encoding.md R47): all but DISPATCH. -/
def isAnsweringUnit : Instr → Bool
  | .peak | .bin2hz | .quant | .hsStart | .hsEnd | .classify | .evenidx | .assemble | .finalize => true
  | _ => false

/-- The states an operation can leave, with what each says of the state before. `exec_effect` ties it
to `exec`. -/
inductive Effect (s : State) : Instr → State → Prop where
  | reset :
      Effect s .reset (logWord 0x00#8 { setCore Core.reset s with booted := true, frOut := none })
  | sampleIgnored (hterm : s.st.run ≠ .run) : Effect s .sample s
  | sampleGathered (hrun : s.st.run = .run) (hlen : s.st.fbuf.length + 1 < s.cfg.frameN) :
      Effect s .sample (logWord 0x20#8 (setCore (fbufAppend s.ports.sData s.st) s))
  | frameCompleted (hdone : s.completesFrame) :
      Effect s .sample (frameStep s.completedBin s.ports.cancel s.atBoundary)
  | frameRow {i : Instr} (hat : s.atFrame)
      (hword : frameStepWord s.cfg s.args.bin s.st = encode i) (hrow : isFrameRow i = true) :
      Effect s i (afterFrameWord s (encode i) s.args.bin (framerTable s.cfg s.args.bin s.st))
  | byteTaken {b : Byte} {last : Bool} {q : List Beat} (hhead : s.st.outq = .byte b last :: q) :
      Effect s (.outByte last) (takeBeat (.byte b last) s)
  | markerTaken {q : List Beat} (hhead : s.st.outq = .empty :: q) :
      Effect s .outEmpty (takeBeat .empty s)
  | capfailIgnored (hterm : s.st.run ≠ .run) : Effect s .capfail s
  | captureFailed (hrun : s.st.run = .run) :
      Effect s .capfail
        (logWord 0x80#8 (setCore (record .captureFail (enterTerminal .halted (fbufClear s.st))) s))
  | answered {i : Instr} (r : UnitResult) (hunit : isAnsweringUnit i = true) :
      Effect s i (answer r s)
  | dispatched : Effect s .dispatch (setCore (streamHandedOver s.cfg s.args.bytes s.st) s)
  | stopped (hrun : s.st.run = .run) (hboundary : s.st.fbuf = []) (hcancel : s.ports.cancel = true) :
      Effect s .stop (stopRun s)

theorem execSample_effect (s : State) :
    Effect s .sample (acceptSample s.ports.sData s.ports.cancel s) := by
  obtain ⟨hterm, h⟩ | ⟨hrun, hlen, h⟩ | ⟨hrun, hlen, h⟩ :=
    acceptSample_cases s.ports.sData s.ports.cancel s
  · exact h.symm ▸ .sampleIgnored hterm
  · exact h.symm ▸ .sampleGathered hrun hlen
  · exact h.symm ▸ .frameCompleted ⟨hrun, hlen⟩

theorem execCapfail_effect {s t : State} (h : execCapfail s = .next t) : Effect s .capfail t := by
  unfold execCapfail at h
  split at h
  next hrun => cases h; exact .captureFailed hrun
  next hterm => cases h; exact .capfailIgnored hterm

theorem execPeak_effect {s t : State} (h : execPeak s = .next t) : Effect s .peak t := by
  unfold execPeak at h
  split at h
  next => cases h; exact .answered _ rfl
  next => cases h

/-- Whatever `exec` answers is one of the effects. -/
theorem exec_effect {i : Instr} {s t : State} (h : exec i s = .next t) : Effect s i t := by
  cases i with
  | reset => cases h; exact .reset
  | sample => cases h; exact execSample_effect s
  | capfail => exact execCapfail_effect h
  | peak => exact execPeak_effect h
  | bin2hz | quant | hsStart | hsEnd | classify | evenidx | assemble | finalize =>
    cases h; exact .answered _ rfl
  | dispatch =>
    cases h
    rw [dispatch_eq]
    exact .dispatched
  | frIdleStart _ | frIdleOther _ | frPktEnd _ _ | frPktAppend _ | frPktFull _ =>
    obtain ⟨hat, hword, rfl⟩ := exec_frameRow_next rfl h
    exact .frameRow hat hword rfl
  | outByte last =>
    obtain ⟨b, q, hhead, rfl⟩ := execOutByte_next h
    exact .byteTaken hhead
  | outEmpty =>
    obtain ⟨q, hhead, rfl⟩ := execOutEmpty_next h
    exact .markerTaken hhead
  | stop =>
    obtain ⟨hrun, hboundary, hcancel, rfl⟩ := execStop_next h
    exact .stopped hrun hboundary hcancel

/-- What no operation writes: the parameters, the words still pending, the port values still to come;
and no operation takes the machine back before its first RESET. -/
theorem Effect.frame {i : Instr} {s t : State} (h : Effect s i t) :
    t.cfg = s.cfg ∧ t.pending = s.pending ∧ t.inputs = s.inputs
      ∧ (s.booted = true → t.booted = true) := by
  cases h with
  | frameCompleted hdone =>
    rw [frameStep_eq]
    cases s.ports.cancel <;> exact ⟨rfl, rfl, rfl, id⟩
  | reset => exact ⟨rfl, rfl, rfl, fun _ => rfl⟩
  | sampleIgnored | sampleGathered | frameRow | byteTaken | markerTaken | capfailIgnored
  | captureFailed | answered | dispatched | stopped => exact ⟨rfl, rfl, rfl, id⟩

/-! ### The configuration (R23) -/

/-- Settles O12: neither a clock edge nor an operation writes `cfg`. -/
theorem noStepWritesConfiguration : Obligations.NoStepWritesConfiguration := by
  intro s t hstep
  obtain ⟨-, rfl⟩ | ⟨w, ws, i, -, -, -, hexec⟩ := step_next hstep
  · rw [nextCycle_eq, startCycle_cfg]
  · obtain ⟨hcfg, -⟩ := (exec_effect hexec).frame
    exact hcfg

/-! ### The bin of the peak search (40_spectral.md R52, R54) -/

theorem scanPeak_le {gt : ℕ → ℕ → Bool} {top : ℕ} (f k best : ℕ) (hbest : best ≤ top)
    (hk : k + f ≤ top + 1) : scanPeak gt f k best ≤ top := by
  induction f generalizing k best with
  | zero => exact hbest
  | succ f ih =>
    refine ih (k + 1) _ ?_ (by omega)
    split
    · omega
    · exact hbest

theorem exactPeak_le (N : ℕ) (x : List Sample) : exactPeak N x ≤ N / 2 :=
  scanPeak_le _ _ _ (Nat.zero_le _) (by omega)

/-- The peak function answers a bin of 0 to NB for every list of samples. -/
theorem peakBin_le_numBins (cfg : Config) (x : List Sample) : peakBin cfg x ≤ numBins cfg := by
  have hexact : exactPeak cfg.frameN x ≤ numBins cfg := exactPeak_le ..
  unfold peakBin
  dsimp only
  split
  · exact Nat.zero_le _
  · split
    · exact hexact
    · split
      · exact hexact
      · exact Nat.le_of_lt_succ (Nat.mod_lt _ (Nat.succ_pos _))

/-! ### The record's operations keep the invariants (R18, R19) -/

theorem Core.inv_reset (cfg : Config) : Core.reset.Inv cfg where
  fbuf_lt := by
    have hN : 2 ≤ cfg.frameN := ((params_inRange_iff _).mp cfg.inRange).2.1
    exact Nat.lt_of_lt_of_le Nat.zero_lt_two hN
  pkt_le := Nat.zero_le _
  pkt_bins := nofun
  outq_le := Nat.zero_le _
  idle _ := ⟨rfl, rfl⟩
  terminal h := absurd rfl h
  overflowed := nofun
  streams := rfl
  lastErr := .inl rfl

section
variable {cfg : Config} {st : Core}

theorem Core.Inv.fbufAppend (h : st.Inv cfg) (d : Sample) (hrun : st.run = .run)
    (hlen : st.fbuf.length + 1 < cfg.frameN) : (fbufAppend d st).Inv cfg :=
  { h with
    fbuf_lt := by simpa using hlen
    terminal := fun hterm => absurd hrun hterm }

theorem Core.Inv.fbufClear (h : st.Inv cfg) : (fbufClear st).Inv cfg :=
  { h with
    fbuf_lt := Nat.lt_of_le_of_lt (Nat.zero_le _) h.fbuf_lt
    terminal := fun hterm => ⟨rfl, (h.terminal hterm).2⟩ }

theorem Core.Inv.closePacket (h : st.Inv cfg) : (closePacket st).Inv cfg :=
  { h with
    pkt_le := Nat.zero_le _
    pkt_bins := nofun
    idle := fun _ => ⟨rfl, rfl⟩
    terminal := fun hterm => ⟨(h.terminal hterm).1, rfl, rfl, rfl⟩
    overflowed := nofun }

/-- A terminal state is entered at a frame boundary (R19 item 2). -/
theorem Core.Inv.enterTerminal (h : st.Inv cfg) (r : Run) (hboundary : st.fbuf = []) :
    (enterTerminal r st).Inv cfg :=
  { h.closePacket with terminal := fun _ => ⟨hboundary, rfl, rfl, rfl⟩ }

theorem Core.Inv.recordCaptureFail (h : st.Inv cfg) : (record .captureFail st).Inv cfg :=
  { h with lastErr := .inr (.inl rfl) }

theorem Core.Inv.outqPop (h : st.Inv cfg) : (outqPop st).Inv cfg :=
  { h with
    outq_le := by
      have hle := h.outq_le
      simp only [outqPop_outq, List.length_tail]
      omega
    streams := by
      have hstreams := h.streams
      rw [outqPop_outq]
      cases hq : st.outq with
      | nil => rfl
      | cons b q => exact wholeStreams_tail (hq ▸ hstreams) }

/-- A byte stream joins the queue whole or not at all (R19 item 4). -/
theorem Core.Inv.streamHandedOver (h : st.Inv cfg) (bs : List Byte) :
    (streamHandedOver cfg bs st).Inv cfg := by
  unfold Machine.streamHandedOver
  split
  next hroom =>
    exact { h with
      outq_le := by simpa using hroom
      streams := wholeStreams_append h.streams (wholeStreams_beatsOfStream bs) }
  next => exact { h with lastErr := .inr (.inr (.inr rfl)) }

theorem Core.Inv.rowIdleStart (h : st.Inv cfg) (hrun : st.run = .run) :
    (rowIdleStart st).Inv cfg :=
  { h with
    pkt_le := Nat.zero_le _
    pkt_bins := nofun
    idle := nofun
    terminal := fun hterm => absurd hrun hterm
    overflowed := nofun }

/-- With room left the packet has not overflowed (R19 item 3), so it may grow. -/
theorem Core.Inv.pktAppend {k : ℕ} (h : st.Inv cfg) (hrun : st.run = .run) (hk : k ≤ numBins cfg)
    (hin : st.fr = .inPkt) (hroom : st.pkt.length ≠ cfg.pktMax) : (pktAppend k st).Inv cfg :=
  { h with
    pkt_le := by
      have hle := h.pkt_le
      simp only [pktAppend_pkt, List.length_append, List.length_singleton]
      omega
    pkt_bins := by
      simp only [pktAppend_pkt, List.forall_mem_append, List.forall_mem_singleton]
      exact ⟨h.pkt_bins, hk⟩
    idle := fun hidle => by simp [hin] at hidle
    terminal := fun hterm => absurd hrun hterm
    overflowed := fun hovf => absurd (h.overflowed hovf).2.2 hroom }

theorem Core.Inv.packetEnded (h : st.Inv cfg) : (packetEnded cfg st).Inv cfg := by
  rw [packetEnded_eq_closePacket]
  split
  · exact h.closePacket
  · exact (h.streamHandedOver _).closePacket

/-- HOLD keeps the full packet and its overflow flag; ABORT closes a packet that, by R19 item 3, has no
flag to clear. -/
theorem Core.Inv.packetOverflowed {k : ℕ} (h : st.Inv cfg) (hrun : st.run = .run)
    (hfull : st.packetFullAt cfg k) : (packetOverflowed cfg st).Inv cfg := by
  obtain ⟨hin, -, hlen⟩ := hfull
  unfold Machine.packetOverflowed
  split
  next hhold _ =>
    exact { h with
      idle := fun hidle => by simp [hin] at hidle
      terminal := fun hterm => absurd hrun hterm
      overflowed := fun _ => ⟨hhold, hin, hlen⟩
      lastErr := .inr (.inr (.inl rfl)) }
  next => exact h
  next habort =>
    have hpovf : st.povf ≠ true := fun hovf => by
      simpa [habort] using (h.overflowed hovf).1
    exact { h with
      pkt_le := Nat.zero_le _
      pkt_bins := nofun
      idle := fun _ => ⟨rfl, by simpa using hpovf⟩
      terminal := fun hterm => absurd hrun hterm
      overflowed := fun hovf => absurd hovf hpovf
      lastErr := .inr (.inr (.inl rfl)) }

/-- The framer's transition keeps the invariants of a running core. -/
theorem Core.Inv.framerTable {k : ℕ} (h : st.Inv cfg) (hrun : st.run = .run)
    (hk : k ≤ numBins cfg) : (framerTable cfg k st).Inv cfg := by
  apply framerTable_rows (P := (·.Inv cfg))
  case start => exact fun _ _ => h.rowIdleStart hrun
  case other => exact fun _ _ => h
  case ended => exact fun _ => h.packetEnded
  case full => exact fun hfull => h.packetOverflowed hrun hfull
  case append => exact fun hin _ hroom => h.pktAppend hrun hk hin hroom

end

/-! ### The invariants of the state (R18, R19; R15) -/

section
variable {s : State}

/-- The invariants speak of four fields only: a state that agrees with `s` on the configuration, the
reports and the debug port, and whose record meets them, meets them too. -/
theorem State.Inv.of_core {t : State} (h : s.Inv) (hcfg : t.cfg = s.cfg)
    (hframes : t.obs.frames = s.obs.frames) (hfrOut : t.frOut = s.frOut ∨ t.frOut = none)
    (hcore : t.st.Inv s.cfg) : t.Inv where
  core := hcfg ▸ hcore
  frames := by rw [hcfg, hframes]; exact h.frames
  frOut := by
    rw [hcfg]
    obtain hsame | hnone := hfrOut
    · rw [hsame]; exact h.frOut
    · rw [hnone]; nofun

/-- A clock edge moves no field of `st` and ends the report of the edge before (R14, R15). -/
theorem State.Inv.nextCycle (h : s.Inv) : (nextCycle s).Inv := by
  rw [nextCycle_eq]
  exact h.of_core rfl rfl (.inr rfl) h.core

/-- A frame word adds one report, of its own bin, and shows it. -/
theorem State.Inv.afterFrameWord {c : Core} {k : ℕ} (h : s.Inv) (ew : EventWord)
    (hcore : c.Inv s.cfg) (hk : k ≤ numBins s.cfg) : (afterFrameWord s ew k c).Inv where
  core := hcore
  frames := by
    simp only [afterFrameWord_obs_frames, List.forall_mem_append, List.forall_mem_singleton]
    exact ⟨h.frames, hk, rfl⟩
  frOut := by
    rintro r ⟨⟩
    exact ⟨hk, rfl⟩

theorem State.Inv.stopRun (h : s.Inv) (hboundary : s.st.fbuf = []) : (stopRun s).Inv :=
  h.of_core rfl rfl (.inl rfl) (h.core.enterTerminal .stopped hboundary)

theorem State.Inv.atBoundary (h : s.Inv) : s.atBoundary.Inv :=
  h.of_core rfl rfl (.inl rfl) h.core.fbufClear

theorem State.Inv.frameStep {k : ℕ} (h : s.Inv) (cancel : Bool) (hrun : s.st.run = .run)
    (hboundary : s.st.fbuf = []) (hk : k ≤ numBins s.cfg) : (frameStep k cancel s).Inv := by
  have hframe := h.afterFrameWord (frameStepWord s.cfg k s.st) (h.core.framerTable hrun hk) hk
  rw [frameStep_eq]
  split
  · exact hframe.stopRun ((framerTable_fbuf ..).trans hboundary)
  · exact hframe

/-- Every operation keeps the invariants. -/
theorem Effect.keeps_inv {i : Instr} {t : State} (he : Effect s i t) (h : s.Inv) : t.Inv := by
  cases he with
  | reset => exact h.of_core rfl rfl (.inr rfl) (Core.inv_reset s.cfg)
  | sampleIgnored | capfailIgnored => exact h
  | sampleGathered hrun hlen =>
    exact h.of_core rfl rfl (.inl rfl) (h.core.fbufAppend s.ports.sData hrun hlen)
  | frameCompleted hdone =>
    exact h.atBoundary.frameStep s.ports.cancel hdone.1 rfl (peakBin_le_numBins ..)
  | frameRow hat =>
    obtain ⟨hrun, -, hbin⟩ := hat
    exact h.afterFrameWord _ (h.core.framerTable hrun hbin) hbin
  | byteTaken | markerTaken => exact h.of_core rfl rfl (.inl rfl) h.core.outqPop
  | captureFailed =>
    exact h.of_core rfl rfl (.inl rfl)
      (h.core.fbufClear.enterTerminal .halted rfl).recordCaptureFail
  | answered => exact h.of_core rfl rfl (.inl rfl) h.core
  | dispatched => exact h.of_core rfl rfl (.inl rfl) (h.core.streamHandedOver s.args.bytes)
  | stopped _ hboundary => exact h.stopRun hboundary

end

/-- Settles O56: a clock edge and every operation keep the invariants. -/
theorem stepKeepsInvariant : Obligations.StepKeepsInvariant := by
  intro s t h hstep
  obtain ⟨-, rfl⟩ | ⟨w, ws, i, -, -, -, hexec⟩ := step_next hstep
  · exact h.nextCycle
  · have htaken : State.Inv { s with pending := ws } := h.of_core rfl rfl (.inl rfl) h.core
    exact (exec_effect hexec).keeps_inv htaken

/-- Settles O57: the record after RESET meets the invariants, and nothing is reported yet. -/
theorem resetMeetsInvariant : Obligations.ResetMeetsInvariant := fun cfg =>
  { core := Core.inv_reset cfg
    frames := nofun
    frOut := nofun }

/-! ### The head beat (R16) -/

/-- Handing over a stream only adds to the end of the queue. -/
theorem outq_prefix_streamHandedOver (cfg : Config) (bs : List Byte) (st : Core) :
    st.outq <+: (streamHandedOver cfg bs st).outq := by
  unfold streamHandedOver
  split
  · exact List.prefix_append ..
  · exact List.prefix_rfl

theorem outq_prefix_framerTable (cfg : Config) (k : ℕ) (st : Core) :
    st.outq <+: (framerTable cfg k st).outq := by
  apply framerTable_rows (P := (st.outq <+: ·.outq))
  case start => exact fun _ _ => List.prefix_rfl
  case other => exact fun _ _ => List.prefix_rfl
  case ended =>
    intro _
    rw [packetEnded_eq_closePacket, closePacket_outq]
    split
    · exact List.prefix_rfl
    · exact outq_prefix_streamHandedOver ..
  case full =>
    intro _
    rw [packetOverflowed_outq]
  case append => exact fun _ _ _ => List.prefix_rfl

/-- Every operation but RESET and the OUT operations only adds to the end of the queue. -/
theorem Effect.outq_prefix {i : Instr} {s t : State} (h : Effect s i t) (hreset : i ≠ .reset)
    (hempty : i ≠ .outEmpty) (hbyte : ∀ last, i ≠ .outByte last) : s.st.outq <+: t.st.outq := by
  cases h with
  | reset => exact absurd rfl hreset
  | markerTaken => exact absurd rfl hempty
  | byteTaken => exact absurd rfl (hbyte _)
  | frameCompleted =>
    have hrow := outq_prefix_framerTable s.cfg s.completedBin (fbufClear s.st)
    rw [frameStep_st]
    split <;> exact hrow
  | frameRow => exact outq_prefix_framerTable ..
  | dispatched => exact outq_prefix_streamHandedOver ..
  | sampleIgnored | sampleGathered | capfailIgnored | captureFailed | answered | stopped =>
    exact List.prefix_rfl

/-- Settles O18: the queue only grows at its end. -/
theorem headBeatHeldUntilTaken : Obligations.HeadBeatHeldUntilTaken := by
  intro i s t b q hreset hempty hbyte hq hexec
  obtain ⟨added, hadded⟩ := (exec_effect hexec).outq_prefix hreset hempty hbyte
  exact ⟨q ++ added, by rw [← hadded, hq, List.cons_append]⟩

/-! ### The sticky error bits (R17, R22; 60_exceptions.md R83, R90) -/

/-- Each sticky bit set before is set after. -/
def Core.KeepsErrors (before after : Core) : Prop :=
  (before.errCap = true → after.errCap = true) ∧ (before.errPktovf = true → after.errPktovf = true)
    ∧ (before.errOutqovf = true → after.errOutqovf = true)

theorem Core.KeepsErrors.refl (st : Core) : st.KeepsErrors st := ⟨id, id, id⟩

theorem keepsErrors_record (e : ErrCode) (st : Core) : st.KeepsErrors (record e st) := by
  simp +contextual [Core.KeepsErrors]

theorem keepsErrors_streamHandedOver (cfg : Config) (bs : List Byte) (st : Core) :
    st.KeepsErrors (streamHandedOver cfg bs st) := by
  unfold streamHandedOver
  split
  · exact .refl _
  · exact ⟨id, id, fun _ => rfl⟩

theorem keepsErrors_packetOverflowed (cfg : Config) (st : Core) :
    st.KeepsErrors (packetOverflowed cfg st) := by
  unfold packetOverflowed
  split
  · exact ⟨id, fun _ => rfl, id⟩
  · exact .refl _
  · exact ⟨id, fun _ => rfl, id⟩

theorem keepsErrors_framerTable (cfg : Config) (k : ℕ) (st : Core) :
    st.KeepsErrors (framerTable cfg k st) := by
  apply framerTable_rows (P := st.KeepsErrors)
  case start => exact fun _ _ => .refl _
  case other => exact fun _ _ => .refl _
  case ended =>
    intro _
    rw [packetEnded_eq_closePacket]
    split
    · exact .refl _
    · exact keepsErrors_streamHandedOver ..
  case full => exact fun _ => keepsErrors_packetOverflowed ..
  case append => exact fun _ _ _ => .refl _

/-- Every operation but RESET keeps the sticky bits that are set. -/
theorem Effect.keepsErrors {i : Instr} {s t : State} (h : Effect s i t) (hreset : i ≠ .reset) :
    s.st.KeepsErrors t.st := by
  cases h with
  | reset => exact absurd rfl hreset
  | frameCompleted =>
    have hrow := keepsErrors_framerTable s.cfg s.completedBin (fbufClear s.st)
    rw [frameStep_st]
    split <;> exact hrow
  | frameRow => exact keepsErrors_framerTable ..
  | captureFailed => exact keepsErrors_record .captureFail _
  | dispatched => exact keepsErrors_streamHandedOver ..
  | sampleIgnored | sampleGathered | byteTaken | markerTaken | capfailIgnored | answered | stopped =>
    exact .refl _

/-- Settles O15: no effect but RESET's clears a bit. -/
theorem stickyBitsClearedOnlyByReset : Obligations.StickyBitsClearedOnlyByReset :=
  fun _ _ _ hreset hexec => (exec_effect hexec).keepsErrors hreset

/-! #### Which event sets which bit -/

/-- A frame word that finds the packet buffer full is FR_PKT_FULL (30_encoding.md R46). -/
theorem eq_frPktFull_of_packetFullAt {i : Instr} {cfg : Config} {k : ℕ} {st : Core}
    (hrow : isFrameRow i = true) (hword : frameStepWord cfg k st = encode i)
    (hfull : st.packetFullAt cfg k) : ∃ hs, i = .frPktFull hs := by
  obtain ⟨hin, hend, hlen⟩ := hfull
  cases i with
  | frPktFull hs => exact ⟨hs, rfl⟩
  | frIdleStart _ | frIdleOther _ | frPktEnd _ _ | frPktAppend _ =>
    have hbits := frameStepWord_eq_frameBits.mp hword
    simp [hin, hend, hlen] at hbits
  | reset | sample | outByte | outEmpty | capfail | peak | bin2hz | quant | hsStart | hsEnd | classify
  | evenidx | assemble | finalize | dispatch | stop => cases hrow

/-- A frame word that ends the packet is FR_PKT_END (30_encoding.md R46). -/
theorem eq_frPktEnd_of_packetEndsAt {i : Instr} {cfg : Config} {k : ℕ} {st : Core}
    (hrow : isFrameRow i = true) (hword : frameStepWord cfg k st = encode i)
    (hends : st.packetEndsAt cfg k) : ∃ full hs, i = .frPktEnd full hs := by
  obtain ⟨hin, hend⟩ := hends
  cases i with
  | frPktEnd full hs => exact ⟨full, hs, rfl⟩
  | frIdleStart _ | frIdleOther _ | frPktAppend _ | frPktFull _ =>
    have hbits := frameStepWord_eq_frameBits.mp hword
    simp [hin, hend] at hbits
  | reset | sample | outByte | outEmpty | capfail | peak | bin2hz | quant | hsStart | hsEnd | classify
  | evenidx | assemble | finalize | dispatch | stop => cases hrow

section
variable {i : Instr} {s t : State}

/-- `err_cap` is set by CAPFAIL in RUN only. -/
theorem Effect.errCap_event (h : Effect s i t) (hset : t.st.errCap = true) :
    s.st.errCap = true ∨ (i = .capfail ∧ s.st.run = .run) := by
  cases h with
  | captureFailed hrun => exact .inr ⟨rfl, hrun⟩
  | reset => cases hset
  | frameCompleted =>
    obtain ⟨hsame, -⟩ := framerTable_errors s.cfg s.completedBin (fbufClear s.st)
    rw [frameStep_errCap] at hset
    exact .inl (hsame ▸ hset)
  | frameRow =>
    obtain ⟨hsame, -⟩ := framerTable_errors s.cfg s.args.bin s.st
    exact .inl (hsame ▸ hset)
  | dispatched =>
    obtain ⟨hsame, -⟩ := streamHandedOver_errors s.cfg s.args.bytes s.st
    exact .inl (hsame ▸ hset)
  | sampleIgnored | sampleGathered | byteTaken | markerTaken | capfailIgnored | answered | stopped =>
    exact .inl hset

/-- `err_pktovf` is set by a frame that finds the packet buffer full only. -/
theorem Effect.errPktovf_event (h : Effect s i t) (hset : t.st.errPktovf = true) :
    s.st.errPktovf = true ∨ (∃ hs, i = .frPktFull hs)
      ∨ (i = .sample ∧ s.completesFrame ∧ s.st.packetFullAt s.cfg s.completedBin) := by
  cases h with
  | reset => cases hset
  | frameCompleted hdone =>
    obtain ⟨-, hfullAt, -⟩ := framerTable_errors s.cfg s.completedBin (fbufClear s.st)
    rw [frameStep_errPktovf] at hset
    exact (hfullAt hset).imp_right fun hfull => .inr ⟨rfl, hdone, hfull⟩
  | frameRow _ hword hrow =>
    obtain ⟨-, hfullAt, -⟩ := framerTable_errors s.cfg s.args.bin s.st
    exact (hfullAt hset).imp_right fun hfull =>
      .inl (eq_frPktFull_of_packetFullAt hrow hword hfull)
  | captureFailed => exact .inl (by simpa using hset)
  | dispatched =>
    obtain ⟨-, hsame, -⟩ := streamHandedOver_errors s.cfg s.args.bytes s.st
    exact .inl (hsame ▸ hset)
  | sampleIgnored | sampleGathered | byteTaken | markerTaken | capfailIgnored | answered | stopped =>
    exact .inl hset

/-- `err_outqovf` is set by a byte stream that does not fit in the queue only. -/
theorem Effect.errOutqovf_event (h : Effect s i t) (hset : t.st.errOutqovf = true) :
    s.st.errOutqovf = true ∨ (i = .dispatch ∧ s.st.lacksRoom s.cfg s.args.bytes)
      ∨ (∃ full hs, i = .frPktEnd full hs ∧ s.st.povf = false
          ∧ s.st.lacksRoom s.cfg (finalize s.cfg s.st.pkt))
      ∨ (i = .sample ∧ s.completesFrame ∧ s.st.packetEndsAt s.cfg s.completedBin
          ∧ s.st.povf = false ∧ s.st.lacksRoom s.cfg (finalize s.cfg s.st.pkt)) := by
  cases h with
  | reset => cases hset
  | frameCompleted hdone =>
    obtain ⟨-, -, hendsAt⟩ := framerTable_errors s.cfg s.completedBin (fbufClear s.st)
    rw [frameStep_errOutqovf] at hset
    exact (hendsAt hset).imp_right fun hends => .inr (.inr ⟨rfl, hdone, hends⟩)
  | frameRow _ hword hrow =>
    obtain ⟨-, -, hendsAt⟩ := framerTable_errors s.cfg s.args.bin s.st
    refine (hendsAt hset).imp_right fun ⟨hends, hroom⟩ => .inr (.inl ?_)
    obtain ⟨full, hs, hi⟩ := eq_frPktEnd_of_packetEndsAt hrow hword hends
    exact ⟨full, hs, hi, hroom⟩
  | captureFailed => exact .inl (by simpa using hset)
  | dispatched =>
    obtain ⟨-, -, hnoRoom⟩ := streamHandedOver_errors s.cfg s.args.bytes s.st
    exact (hnoRoom hset).imp_right fun hroom => .inl ⟨rfl, hroom⟩
  | sampleIgnored | sampleGathered | byteTaken | markerTaken | capfailIgnored | answered | stopped =>
    exact .inl hset

end

/-- Settles O16: a bit that was clear is set by its own event. -/
theorem stickyBitsSetOnlyByTheirEvents : Obligations.StickyBitsSetOnlyByTheirEvents := by
  intro i s t hexec
  have heffect := exec_effect hexec
  have notSet {b : Bool} (hclear : b = false) : ¬ b = true := by simp [hclear]
  exact ⟨fun hclear hset => (heffect.errCap_event hset).resolve_left (notSet hclear),
    fun hclear hset => (heffect.errPktovf_event hset).resolve_left (notSet hclear),
    fun hclear hset => (heffect.errOutqovf_event hset).resolve_left (notSet hclear)⟩

/-! ### The clock edge (R14; 60_exceptions.md R88) -/

/-- The output event of an edge is the OUT word of the head beat (30_encoding.md R47). -/
theorem outputWords_eq (p : Ports) (outq : List Beat) :
    outputWords p outq =
      match p.oReady, outq with
      | true, .byte _ last :: _ => [encode (.outByte last)]
      | true, .empty :: _ => [encode .outEmpty]
      | _, _ => [] := by
  unfold outputWords
  cases p.oReady with
  | false => rfl
  | true =>
    cases outq with
    | nil => rfl
    | cons b q => cases b <;> rfl

/-- With no word pending a step begins the next clock edge. -/
theorem step_of_pending_nil {s : State} (h : s.pending = []) : step s = .next (nextCycle s) := by
  unfold step
  rw [h]

/-- A started machine with a word pending runs the operation it decodes to. -/
theorem step_of_pending_cons {s : State} {w : EventWord} {ws : List EventWord} {i : Instr}
    (hbooted : s.booted = true) (hpending : s.pending = w :: ws) (hdecode : decode w = .ok i) :
    step s = exec i { s with pending := ws } := by
  have hmay : mayTake i s = true := by simp [mayTake, hbooted]
  unfold step
  rw [hpending]
  simp only [hdecode]
  exact if_pos hmay

/-- Settles O7: the edge begins, and its words are those of the operations in R88's order. -/
theorem clockEdgeQueuesEventsInOrder : Obligations.ClockEdgeQueuesEventsInOrder := by
  rintro s p hpending rfl
  rw [step_of_pending_nil hpending, nextCycle_eq]
  simp only [startCycle, cycleWords, inputWords, outputWords_eq]
  rfl

/-! #### The events of an edge complete -/

/-- `n` steps take every pending word and leave the values of the coming edges alone. -/
def CompletesIn (n : ℕ) (s : State) : Prop :=
  ∃ t, Host.Core.run Sys2Proof.core n s = .next t ∧ t.pending = [] ∧ t.booted = true
    ∧ t.inputs = s.inputs

theorem run_succ_of_step {s s' : State} (n : ℕ) (h : step s = .next s') :
    Host.Core.run Sys2Proof.core (n + 1) s = Host.Core.run Sys2Proof.core n s' := by
  have hcore : Sys2Proof.core.step s = .next s' := h
  simp only [Host.Core.run, hcore]

theorem completesIn_zero {s : State} (hbooted : s.booted = true) (hpending : s.pending = []) :
    CompletesIn 0 s := ⟨s, rfl, hpending, hbooted, rfl⟩

/-- A started machine takes a pending word whose operation `exec` runs. -/
theorem completesIn_succ {s t : State} {w : EventWord} {ws : List EventWord} {i : Instr} {n : ℕ}
    (hbooted : s.booted = true) (hpending : s.pending = w :: ws) (hdecode : decode w = .ok i)
    (hexec : exec i { s with pending := ws } = .next t)
    (hrest : t.booted = true → t.pending = ws → CompletesIn n t) : CompletesIn (n + 1) s := by
  obtain ⟨-, hwords, hinputs, hstarted⟩ := (exec_effect hexec).frame
  obtain ⟨u, hrun, hu, hub, hui⟩ := hrest (hstarted hbooted) hwords
  have hstep : step s = .next t := (step_of_pending_cons hbooted hpending hdecode).trans hexec
  exact ⟨u, (run_succ_of_step n hstep).trans hrun, hu, hub, hui.trans hinputs⟩

theorem exec_sample_next (s : State) : ∃ t, exec .sample s = .next t := ⟨_, rfl⟩

theorem exec_capfail_next (s : State) : ∃ t, exec .capfail s = .next t := by
  change ∃ t, execCapfail s = .next t
  unfold execCapfail
  split
  · exact ⟨_, rfl⟩
  · exact ⟨_, rfl⟩

theorem decode_outBits (last : Bool) : decode (outBits last false) = .ok (.outByte last) := by
  cases last <;> decide

/-- The OUT word of the head beat is never refused (44_control.md R80, R81). -/
theorem exec_beatWord_next {s : State} {b : Beat} {q : List Beat} (hq : s.st.outq = b :: q) :
    ∃ i t, decode (beatWord b) = .ok i ∧ exec i s = .next t := by
  cases b with
  | byte v last =>
    refine ⟨.outByte last, takeBeat (.byte v last) s, decode_outBits last, ?_⟩
    change execOutByte last s = _
    simp [execOutByte, hq]
  | empty =>
    refine ⟨.outEmpty, takeBeat .empty s, by decide, ?_⟩
    change execOutEmpty s = _
    simp [execOutEmpty, hq]

/-- An edge brings at most one input event, CAPFAIL or SAMPLE (R14). -/
theorem inputWords_cases (p : Ports) :
    inputWords p = []
      ∨ ∃ w i, inputWords p = [w] ∧ decode w = .ok i ∧ (i = .capfail ∨ i = .sample) := by
  unfold inputWords
  split
  · exact .inr ⟨0x80#8, .capfail, rfl, by decide, .inl rfl⟩
  · split
    · exact .inr ⟨0x20#8, .sample, rfl, by decide, .inr rfl⟩
    · exact .inl rfl

/-- The input event is never refused and holds the head beat. -/
theorem exec_input_next {i : Instr} (hi : i = .capfail ∨ i = .sample) (s : State) :
    ∃ t, exec i s = .next t ∧ s.st.outq <+: t.st.outq := by
  obtain rfl | rfl := hi
  · obtain ⟨t, ht⟩ := exec_capfail_next s
    exact ⟨t, ht, (exec_effect ht).outq_prefix (by decide) (by decide) (by decide)⟩
  · obtain ⟨t, ht⟩ := exec_sample_next s
    exact ⟨t, ht, (exec_effect ht).outq_prefix (by decide) (by decide) (by decide)⟩

/-- An output event that is still pending completes, since the head beat it was queued for is held. -/
theorem outputWords_complete {p : Ports} {outq : List Beat} {s : State} (hbooted : s.booted = true)
    (hpending : s.pending = outputWords p outq) (hheld : outq <+: s.st.outq) :
    ∃ n ≤ 1, CompletesIn n s := by
  unfold outputWords at hpending
  split at hpending
  · cases outq with
    | nil => exact ⟨0, Nat.zero_le _, completesIn_zero hbooted hpending⟩
    | cons b q =>
      obtain ⟨added, hadded⟩ := hheld
      obtain ⟨i, t, hdecode, hexec⟩ :=
        exec_beatWord_next (s := { s with pending := [] }) (q := q ++ added) hadded.symm
      exact ⟨1, le_rfl, completesIn_succ hbooted hpending hdecode hexec completesIn_zero⟩
  · exact ⟨0, Nat.zero_le _, completesIn_zero hbooted hpending⟩

/-- The events of one edge complete: RESET alone, or the input event and then the output event. -/
theorem cycleWords_complete {p : Ports} {s : State} (hbooted : s.booted = true)
    (hpending : s.pending = cycleWords p s.st.outq) : ∃ n ≤ 2, CompletesIn n s := by
  unfold cycleWords at hpending
  split at hpending
  · exact ⟨1, by omega,
      completesIn_succ (i := .reset) hbooted hpending (by decide) rfl completesIn_zero⟩
  · obtain hnone | ⟨w, i, hone, hdecode, hi⟩ := inputWords_cases p
    · rw [hnone, List.nil_append] at hpending
      obtain ⟨n, hn, hdone⟩ := outputWords_complete hbooted hpending List.prefix_rfl
      exact ⟨n, by omega, hdone⟩
    · rw [hone, List.singleton_append] at hpending
      obtain ⟨t, hexec, hheld⟩ := exec_input_next hi { s with pending := outputWords p s.st.outq }
      obtain ⟨-, hwords, -, hstarted⟩ := (exec_effect hexec).frame
      obtain ⟨n, hn, hdone⟩ := outputWords_complete (hstarted hbooted) hwords hheld
      exact ⟨n + 1, by omega, completesIn_succ hbooted hpending hdecode hexec fun _ _ => hdone⟩

/-- Settles O8: one step begins the edge, at most two take its events. -/
theorem portEventsNeverRefused : Obligations.PortEventsNeverRefused := by
  intro s hbooted hpending
  obtain ⟨n, hn, t, hrun, htp, htb, hti⟩ : ∃ n ≤ 2, CompletesIn n (nextCycle s) := by
    rw [nextCycle_eq]
    exact cycleWords_complete hbooted rfl
  rw [nextCycle_eq] at hti
  exact ⟨n + 1, t, by omega, (run_succ_of_step n (step_of_pending_nil hpending)).trans hrun, htp, htb,
    hti, n.succ_pos⟩

/-! ### The state after RESET, the status word, the output ports (R15 to R17, R25) -/

/-- A bit above the low part of a concatenation is a bit of its high part. -/
theorem getLsbD_append_of_le {v w n : ℕ} {hi : BitVec v} {lo : BitVec w} (h : w ≤ n) :
    (hi ++ lo).getLsbD n = hi.getLsbD (n - w) := by
  rw [BitVec.getLsbD_append, if_neg h.not_gt]

theorem getLsbD_append_ofBool {v : ℕ} (hi : BitVec v) (b : Bool) :
    (hi ++ BitVec.ofBool b).getLsbD 0 = b := by
  rw [BitVec.getLsbD_append, if_pos Nat.zero_lt_one, BitVec.getLsbD_ofBool]
  rfl

theorem statusWord_reset : statusWord Core.reset = 0x0000#16 := by decide

/-- Settles O10: R25's values, and the status word and the valids that follow from them. -/
theorem resetStateAsStated : Obligations.ResetStateAsStated :=
  fun _ => ⟨rfl, statusWord_reset, rfl, rfl⟩

/-- Settles O13: each field is found below the fields concatenated above it. -/
theorem statusWordFields : Obligations.StatusWordFields := by
  intro st
  unfold statusWord
  refine ⟨?run, ?fr, ?povf, ?errCap, ?errPktovf, ?errOutqovf, ?lastErr, ?zeros⟩
  case run =>
    rw [BitVec.extractLsb'_append_eq_right]
    cases st.run <;> rfl
  case fr =>
    rw [getLsbD_append_of_le (by decide), getLsbD_append_ofBool]
    cases st.fr <;> rfl
  case povf =>
    iterate 2 rw [getLsbD_append_of_le (by decide)]
    exact getLsbD_append_ofBool ..
  case errCap =>
    iterate 3 rw [getLsbD_append_of_le (by decide)]
    exact getLsbD_append_ofBool ..
  case errPktovf =>
    iterate 4 rw [getLsbD_append_of_le (by decide)]
    exact getLsbD_append_ofBool ..
  case errOutqovf =>
    iterate 5 rw [getLsbD_append_of_le (by decide)]
    exact getLsbD_append_ofBool ..
  case lastErr =>
    iterate 6 rw [BitVec.extractLsb'_append_eq_of_le (by decide)]
    exact BitVec.extractLsb'_append_eq_right
  case zeros =>
    iterate 7 rw [BitVec.extractLsb'_append_eq_of_le (by decide)]
    exact BitVec.extractLsb'_eq_self

/-- The 10 bits of a byte beat (30_encoding.md R42). -/
theorem beatBits_byte (v : Byte) (last : Bool) :
    (beatBits (.byte v last)).getLsbD 9 = false ∧ (beatBits (.byte v last)).getLsbD 8 = last
      ∧ (beatBits (.byte v last)).extractLsb' 0 8 = v := by
  unfold beatBits
  refine ⟨?empty, ?last, ?data⟩
  case empty =>
    rw [getLsbD_append_of_le (by decide), getLsbD_append_of_le (by decide)]
    rfl
  case last =>
    rw [getLsbD_append_of_le (by decide)]
    exact getLsbD_append_ofBool ..
  case data => exact BitVec.extractLsb'_append_eq_right

theorem outPort_of_outq_nil {s : State} (h : s.st.outq = []) : s.outPort.oValid = false := by
  unfold State.outPort
  rw [h]

theorem outPort_of_outq_cons {s : State} {b : Beat} {q : List Beat} (h : s.st.outq = b :: q) :
    s.outPort = { oValid := true, bits := beatBits b } := by
  unfold State.outPort
  rw [h]

theorem oValid_iff (s : State) : s.outPort.oValid = true ↔ s.st.outq ≠ [] := by
  cases hq : s.st.outq with
  | nil => simp [outPort_of_outq_nil hq]
  | cons b q => simp [outPort_of_outq_cons hq]

theorem framePort_of_some {s : State} {r : FrameReport} (h : s.frOut = some r) :
    s.framePort = { frValid := true, frBin := r.bin, frCls := r.cls } := by
  unfold State.framePort
  rw [h]

/-- Without a report only the width of the bin is known (R13, R15). -/
theorem framePort_of_none {s : State} (h : s.frOut = none) :
    s.framePort.frValid = false ∧ s.framePort.frBin < 2 ^ binWidth s.cfg := by
  unfold State.framePort
  rw [h]
  exact ⟨rfl, Nat.mod_lt _ (Nat.two_pow_pos _)⟩

/-- Settles O17: the two ports, with a head beat or a report and without. -/
theorem portsShowHeadBeatAndReport : Obligations.PortsShowHeadBeatAndReport := by
  refine fun s => ⟨oValid_iff s, fun b q hq => ?_, fun r => framePort_of_some, framePort_of_none⟩
  rw [outPort_of_outq_cons hq]
  constructor
  · rintro v last rfl
    exact beatBits_byte v last
  · rintro rfl
    rfl

end Sys2Proof.Machine
end

section
/-!
PROOF. 20_memory.md: the output queue is a FIFO between the core and the consumer (R30, R36).
-/
namespace Sys2Proof.Machine

/-- Taking the head beat moves it from the front of the queue to the end of the beats taken, so their
concatenation stays. -/
theorem takeBeat_beats_append_outq {s : State} {b : Beat} {q : List Beat} (hq : s.st.outq = b :: q) :
    (takeBeat b s).obs.beats ++ (takeBeat b s).st.outq = s.obs.beats ++ s.st.outq := by
  simp [takeBeat_eq, hq]

theorem frameStep_obs_beats (k : ℕ) (cancel : Bool) (s : State) :
    (frameStep k cancel s).obs.beats = s.obs.beats := by
  rw [frameStep_eq]
  cases cancel <;> rfl

/-- Only the OUT operations hand a beat to the consumer. -/
theorem Effect.obs_beats {i : Instr} {s t : State} (h : Effect s i t) (hempty : i ≠ .outEmpty)
    (hbyte : ∀ last, i ≠ .outByte last) : t.obs.beats = s.obs.beats := by
  cases h with
  | markerTaken => exact absurd rfl hempty
  | byteTaken => exact absurd rfl (hbyte _)
  | frameCompleted => exact frameStep_obs_beats ..
  | reset | sampleIgnored | sampleGathered | frameRow | capfailIgnored | captureFailed | answered
  | dispatched | stopped => rfl

/-- Settles O29: an OUT operation moves the head beat across, any other leaves the beats taken and only
adds to the end of the queue. -/
theorem queueIsFifo : Obligations.QueueIsFifo := by
  intro i s t hreset hexec
  cases i with
  | outByte last =>
    obtain ⟨b, q, hhead, rfl⟩ := execOutByte_next hexec
    rw [takeBeat_beats_append_outq hhead]
  | outEmpty =>
    obtain ⟨q, hhead, rfl⟩ := execOutEmpty_next hexec
    rw [takeBeat_beats_append_outq hhead]
  | _ =>
    have heffect := exec_effect hexec
    rw [heffect.obs_beats nofun nofun, List.prefix_append_right_inj]
    exact heffect.outq_prefix hreset nofun nofun

end Sys2Proof.Machine
end

section
/-!
PROOF. 30_encoding.md: event words (R45 to R48), the words the core does not produce (R46; 44_control.md
R78, R80, R81), and tone programs (R50).
-/
namespace Sys2Proof.Machine

open Laws

/-! ### Encoding (R45 to R47) -/

/-- Decoding a FRAME word reads back the four bits it is written from (R46). -/
theorem decode_frameBits (full fr hs he : Bool) :
    decode (frameBits full fr hs he) = decodeFrameBits full fr hs he := by
  revert full fr hs he
  decide

/-- Every operation's word decodes to it. -/
theorem decode_encode (i : Instr) : decode (encode i) = .ok i := by
  cases i with
  | frIdleStart he => exact decode_frameBits false false true he
  | frIdleOther he => exact decode_frameBits false false false he
  | frPktEnd full hs =>
    refine (decode_frameBits full true hs true).trans ?_
    cases full <;> rfl
  | frPktAppend hs => exact decode_frameBits false true hs false
  | frPktFull hs => exact decode_frameBits true true hs false
  | outByte last => exact decode_outBits last
  | reset | sample | outEmpty | capfail | peak | bin2hz | quant | hsStart | hsEnd | classify | evenidx
  | assemble | finalize | dispatch | stop => decide

/-- No two operations share a word. -/
theorem encode_injective : Function.Injective encode := by
  intro i j hword
  have hdecode : (.ok i : Except Reserved Instr) = .ok j := by
    rw [← decode_encode i, hword, decode_encode j]
  exact Except.ok.inj hdecode

/-- No operation is written with a reserved word (R48). -/
theorem reserved_encode : ∀ i : Instr, EventWord.reserved (encode i) = false
  | .reset => EncodesUnreserved.reset
  | .sample => EncodesUnreserved.sample
  | .frIdleStart he => EncodesUnreserved.frIdleStart he
  | .frIdleOther he => EncodesUnreserved.frIdleOther he
  | .frPktEnd full hs => EncodesUnreserved.frPktEnd full hs
  | .frPktAppend hs => EncodesUnreserved.frPktAppend hs
  | .frPktFull hs => EncodesUnreserved.frPktFull hs
  | .outByte last => EncodesUnreserved.outByte last
  | .outEmpty => EncodesUnreserved.outEmpty
  | .capfail => EncodesUnreserved.capfail
  | .peak => EncodesUnreserved.peak
  | .bin2hz => EncodesUnreserved.bin2hz
  | .quant => EncodesUnreserved.quant
  | .hsStart => EncodesUnreserved.hsStart
  | .hsEnd => EncodesUnreserved.hsEnd
  | .classify => EncodesUnreserved.classify
  | .evenidx => EncodesUnreserved.evenidx
  | .assemble => EncodesUnreserved.assemble
  | .finalize => EncodesUnreserved.finalize
  | .dispatch => EncodesUnreserved.dispatch
  | .stop => EncodesUnreserved.stop

/-! ### Decoding (R45 to R48) -/

theorem ewClass_eq (w : EventWord) : ewClass w = w.toNat / 32 := by
  simp only [ewClass, BitVec.extractLsb'_toNat, Nat.shiftRight_eq_div_pow]
  omega

theorem ewLow_eq (w : EventWord) : ewLow w = w.toNat % 32 := by
  simp [ewLow, BitVec.extractLsb'_toNat]

/-- A word is its class and its low field (R45). -/
theorem toNat_eq_class_low (w : EventWord) : w.toNat = 32 * ewClass w + ewLow w := by
  rw [ewClass_eq, ewLow_eq, Nat.div_add_mod]

theorem ewLow_lt (w : EventWord) : ewLow w < 32 := by
  rw [ewLow_eq]
  omega

/-- R48's table as inequalities. -/
theorem reserved_iff (w : EventWord) :
    EventWord.reserved w = true ↔
      (0x01 ≤ w.toNat ∧ w.toNat ≤ 0x1F) ∨ (0x21 ≤ w.toNat ∧ w.toNat ≤ 0x3F)
        ∨ (0xC1 ≤ w.toNat ∧ w.toNat ≤ 0xDF) ∨ (0x81 ≤ w.toNat ∧ w.toNat ≤ 0x9F)
        ∨ (0x48 ≤ w.toNat ∧ w.toNat ≤ 0x4B) ∨ (0x50 ≤ w.toNat ∧ w.toNat ≤ 0x5F)
        ∨ (0x61 ≤ w.toNat ∧ w.toNat ≤ 0x61) ∨ (0x64 ≤ w.toNat ∧ w.toNat ≤ 0x7F)
        ∨ (0xAA ≤ w.toNat ∧ w.toNat ≤ 0xBF) ∨ (0xE0 ≤ w.toNat ∧ w.toNat ≤ 0xFF) := by
  simp only [EventWord.reserved, reservedRanges, List.any_cons, List.any_nil, Bool.or_false,
    Bool.or_eq_true, Bool.and_eq_true, decide_eq_true_eq]

/-- What an answer of the decoder must say of its word: an operation is the one the word is written for,
a refusal is of a word in R48's table. -/
def DecodesRightly (w : EventWord) : Except Reserved Instr → Prop
  | .ok i => encode i = w
  | .error _ => EventWord.reserved w = true

/-- In a class without fields only the zero low field names an operation (R45, R48). -/
theorem decodePlain_rightly {w : EventWord} {i : Instr} (hi : (encode i).toNat = 32 * ewClass w)
    (hclass : ewClass w ∈ [0, 1, 4, 6]) : DecodesRightly w (decodePlain i w) := by
  have hw := toNat_eq_class_low w
  unfold decodePlain
  split
  next hlow => exact BitVec.eq_of_toNat_eq (by omega)
  next hlow =>
    have hlt := ewLow_lt w
    simp only [List.mem_cons, List.not_mem_nil, or_false] at hclass
    exact (reserved_iff w).mpr (by omega)

theorem toNat_getLsbD (w : EventWord) (i : ℕ) : (w.getLsbD i).toNat = w.toNat / 2 ^ i % 2 :=
  Nat.toNat_testBit ..

theorem toNat_frameBits (full fr hs he : Bool) :
    (frameBits full fr hs he).toNat = 64 + 8 * full.toNat + 4 * fr.toNat + 2 * hs.toNat + he.toNat := by
  revert full fr hs he
  decide

/-- A FRAME word with `EW[4]` = 0 is its four bits (R46). -/
theorem frameBits_getLsbD {w : EventWord} (hclass : ewClass w = 2) (hhigh : ¬ w.getLsbD 4 = true) :
    frameBits (w.getLsbD 3) (w.getLsbD 2) (w.getLsbD 1) (w.getLsbD 0) = w := by
  apply BitVec.eq_of_toNat_eq
  have hbit := toNat_getLsbD w 4
  rw [Bool.eq_false_of_not_eq_true hhigh, Bool.toNat_false] at hbit
  rw [ewClass_eq] at hclass
  simp only [toNat_frameBits, toNat_getLsbD]
  omega

/-- The four bits of a FRAME word name the operation written with them; `full` without `fr` is
reserved. -/
theorem decodeFrameBits_rightly (full fr hs he : Bool) :
    DecodesRightly (frameBits full fr hs he) (decodeFrameBits full fr hs he) := by
  cases fr with
  | true => cases full <;> cases he <;> rfl
  | false =>
    cases full with
    | true => cases hs <;> cases he <;> rfl
    | false => cases hs <;> rfl

theorem decodeFrame_rightly {w : EventWord} (hclass : ewClass w = 2) :
    DecodesRightly w (decodeFrame w) := by
  unfold decodeFrame
  split
  next hhigh =>
    have hbit := toNat_getLsbD w 4
    rw [hhigh, Bool.toNat_true] at hbit
    rw [ewClass_eq] at hclass
    exact (reserved_iff w).mpr (by omega)
  next hhigh =>
    have hrow := decodeFrameBits_rightly (w.getLsbD 3) (w.getLsbD 2) (w.getLsbD 1) (w.getLsbD 0)
    rwa [frameBits_getLsbD hclass hhigh] at hrow

theorem toNat_outBits (last empty : Bool) :
    (outBits last empty).toNat = 96 + 2 * last.toNat + empty.toNat := by
  revert last empty
  decide

/-- An OUT word with `EW[4:2]` = 0 is its two bits (R45, R47). -/
theorem outBits_getLsbD {w : EventWord} (hclass : ewClass w = 3) (hhigh : w.toNat / 4 % 8 = 0) :
    outBits (w.getLsbD 1) (w.getLsbD 0) = w := by
  apply BitVec.eq_of_toNat_eq
  rw [ewClass_eq] at hclass
  simp only [toNat_outBits, toNat_getLsbD]
  omega

theorem decodeOut_rightly {w : EventWord} (hclass : ewClass w = 3) :
    DecodesRightly w (decodeOut w) := by
  have hfield : (w.extractLsb' 2 3).toNat = w.toNat / 4 % 8 := by
    simp [BitVec.extractLsb'_toNat, Nat.shiftRight_eq_div_pow]
  unfold decodeOut
  rw [hfield]
  split
  next hhigh =>
    have hword := outBits_getLsbD hclass hhigh
    split
    next hempty => rwa [hempty] at hword
    next hlast hempty => rwa [hlast, hempty] at hword
    next hlast hempty =>
      rw [hlast, hempty] at hword
      rw [← hword]
      rfl
  next hhigh =>
    rw [ewClass_eq] at hclass
    exact (reserved_iff w).mpr (by omega)

/-- The ten function ids of R47 name their operations, and the ids above them are reserved. -/
theorem decodeFunc_rightly :
    ∀ n < 32, DecodesRightly (BitVec.ofNat 8 (0xA0 + n)) (decodeFunc n)
  | 0, _ | 1, _ | 2, _ | 3, _ | 4, _ | 5, _ | 6, _ | 7, _ | 8, _ | 9, _ => rfl
  | n + 10, hn => by
    refine (reserved_iff _).mpr ?_
    rw [BitVec.toNat_ofNat]
    omega

/-- The word of a class and a low field (R45). -/
theorem ofNat_class_low {w : EventWord} {c : ℕ} (hclass : ewClass w = c) :
    BitVec.ofNat 8 (32 * c + ewLow w) = w := by
  rw [← hclass, ← toNat_eq_class_low, BitVec.ofNat_toNat, BitVec.setWidth_eq]

/-- The decoder answers rightly for every word: R45's classes, one after the other. -/
theorem decode_rightly (w : EventWord) : DecodesRightly w (decode w) := by
  unfold decode
  match hclass : ewClass w with
  | 0 | 1 | 4 | 6 => exact decodePlain_rightly (by rw [hclass]; rfl) (by simp [hclass])
  | 2 => exact decodeFrame_rightly hclass
  | 3 => exact decodeOut_rightly hclass
  | 5 =>
    have hfunc := decodeFunc_rightly (ewLow w) (ewLow_lt w)
    rwa [ofNat_class_low hclass] at hfunc
  | n + 7 =>
    have hlt := w.isLt
    rw [ewClass_eq] at hclass
    exact (reserved_iff w).mpr (by omega)

/-- Settles O1: a word that decodes to an operation is rightly decoded. -/
theorem decodeEncodeAgree : Obligations.DecodeEncodeAgree := by
  refine fun i => ⟨decode_encode i, fun w hdecode => ?_⟩
  have hright := decode_rightly w
  rwa [hdecode] at hright

/-- Settles O2: each word is the one `encode` writes for its operation. -/
theorem writtenWordsDecode : Obligations.WrittenWordsDecode :=
  ⟨decode_encode .reset, decode_encode .sample, decode_encode (.frIdleStart true),
    decode_encode (.frIdleOther true), decode_encode (.frPktEnd true false),
    decode_encode (.frPktAppend true), decode_encode (.frPktFull false), decode_encode (.outByte true),
    decode_encode .outEmpty, decode_encode .capfail, decode_encode .assemble, decode_encode .stop⟩

/-! ### Reserved words (R48) -/

/-- The decoder refuses exactly the words of R48's table. -/
theorem reserved_iff_decode_error (w : EventWord) :
    EventWord.reserved w = true ↔ ∃ why, decode w = .error why := by
  have hright := decode_rightly w
  cases hdecode : decode w with
  | error why =>
    rw [hdecode] at hright
    exact iff_of_true hright ⟨why, rfl⟩
  | ok i =>
    have hword : encode i = w := by rwa [hdecode] at hright
    simp [← hword, reserved_encode]

/-- A step whose next word names no operation refuses it, with the decoder's reason. -/
theorem step_of_decode_error {s : State} {w : EventWord} {ws : List EventWord} {why : Reserved}
    (hpending : s.pending = w :: ws) (hdecode : decode w = .error why) :
    step s = .refused (.reservedWord w why) := by
  unfold step
  rw [hpending]
  simp only [hdecode]

/-- Settles O3: the decoder's refusals are R48's table, and the step passes them on. -/
theorem reservedWordsRefused : Obligations.ReservedWordsRefused := by
  refine ⟨reserved_iff_decode_error, fun s w ws hpending hreserved => ?_⟩
  obtain ⟨why, hdecode⟩ := (reserved_iff_decode_error w).mp hreserved
  exact ⟨why, step_of_decode_error hpending hdecode⟩

/-! ### The FRAME class (R46) -/

/-- Every FRAME word with `full` only where `fr` is the word of a framer row. -/
theorem exists_frameRow_encode {full fr : Bool} (hs he : Bool) (hfull : full = true → fr = true) :
    ∃ i, isFrameRow i = true ∧ encode i = frameBits full fr hs he := by
  match full, fr, hs, he with
  | true, false, _, _ => exact absurd (hfull rfl) (by decide)
  | false, false, true, he => exact ⟨.frIdleStart he, rfl, rfl⟩
  | false, false, false, he => exact ⟨.frIdleOther he, rfl, rfl⟩
  | full, true, hs, true => exact ⟨.frPktEnd full hs, rfl, rfl⟩
  | false, true, hs, false => exact ⟨.frPktAppend hs, rfl, rfl⟩
  | true, true, hs, false => exact ⟨.frPktFull hs, rfl, rfl⟩

/-- Settles O4: the row exists since a full packet is open, and is one since `encode` is injective. -/
theorem frameWordNamesOneRow : Obligations.FrameWordNamesOneRow := by
  intro cfg st k
  obtain ⟨i, hrow, hword⟩ : ∃ i, isFrameRow i = true ∧ encode i = frameStepWord cfg k st :=
    exists_frameRow_encode _ _ fun hfull => decide_eq_true (of_decide_eq_true hfull).1
  rw [frameWord_eq, ← hword]
  exact ⟨reserved_encode i, i, ⟨hrow, rfl⟩, fun j ⟨_, hj⟩ => encode_injective hj⟩

/-! ### Words the core does not produce (R46; 44_control.md R78, R80, R81; log 7) -/

/-- A framer row executed on its own is `frameEvent` under its word. -/
theorem exec_frameRow {i : Instr} (hi : isFrameRow i = true) (s : State) :
    ∃ row, exec i s = frameEvent (encode i) row s := by
  cases i with
  | frIdleStart _ | frIdleOther _ | frPktEnd _ _ | frPktAppend _ | frPktFull _ => exact ⟨_, rfl⟩
  | reset | sample | outByte | outEmpty | capfail | peak | bin2hz | quant | hsStart | hsEnd | classify
  | evenidx | assemble | finalize | dispatch | stop => cases hi

theorem exec_frameRow_refused {i : Instr} {s : State} (hi : isFrameRow i = true)
    (hnot : ¬ s.atFrame ∨ encode i ≠ frameStepWord s.cfg s.args.bin s.st) :
    exec i s = .refused (.notProduced (encode i)) := by
  have hready : ¬ frameReady (encode i) s = true := by
    rw [frameReady_iff]
    rintro ⟨hat, hword⟩
    exact hnot.elim (· hat) (· hword.symm)
  obtain ⟨row, hexec⟩ := exec_frameRow hi s
  rw [hexec]
  exact if_neg hready

theorem execOutByte_refused {s : State} {last : Bool}
    (hhead : ∀ b q, s.st.outq ≠ .byte b last :: q) :
    execOutByte last s = .refused (.notProduced (outBits last false)) := by
  unfold execOutByte
  split
  next b l q hq =>
    refine if_neg fun hlast => ?_
    exact hhead b q (hlast ▸ hq)
  next => rfl

theorem execOutEmpty_refused {s : State} (hhead : ∀ q, s.st.outq ≠ .empty :: q) :
    execOutEmpty s = .refused (.notProduced (outBits true true)) := by
  unfold execOutEmpty
  split
  next q hq => exact absurd hq (hhead q)
  next => rfl

theorem stopReady_iff (s : State) :
    stopReady s = true ↔ s.st.run = .run ∧ s.st.fbuf = [] ∧ s.ports.cancel = true := by
  simp [stopReady, and_assoc]

theorem execStop_refused {s : State}
    (hnot : s.st.run ≠ .run ∨ s.st.fbuf ≠ [] ∨ s.ports.cancel = false) :
    execStop s = .refused (.notProduced 0xC0#8) := by
  refine if_neg fun hready => ?_
  obtain ⟨hrun, hboundary, hcancel⟩ := (stopReady_iff s).mp hready
  simp [hrun, hboundary, hcancel] at hnot

/-- Settles O35: each kind of word, away from its conditions. -/
theorem wordsNotProducedAreRefused : Obligations.WordsNotProducedAreRefused :=
  fun _ => ⟨fun _ => exec_frameRow_refused, fun _ => execOutByte_refused, execOutEmpty_refused,
    execStop_refused⟩

/-! ### Tone programs: the lines that are refused (R50) -/

theorem config_sampleRateHz_pos (cfg : Config) : 0 < cfg.sampleRateHz :=
  ((params_inRange_iff _).mp cfg.inRange).1

theorem config_frameN_pos (cfg : Config) : 0 < cfg.frameN :=
  Nat.zero_lt_of_lt ((params_inRange_iff _).mp cfg.inRange).2.1

theorem config_stepHz_pos (cfg : Config) : 0 < cfg.stepHz :=
  ((params_inRange_iff _).mp cfg.inRange).2.2.1

/-- `TONE f` is the bin up to NB of exactly that frequency. -/
theorem toneBin_eq_some_iff {cfg : Config} {f k : ℕ} :
    toneBin cfg f = some k ↔ k ≤ numBins cfg ∧ k * cfg.sampleRateHz = f * cfg.frameN := by
  unfold toneBin
  constructor
  · intro h
    dsimp only at h
    split at h
    next hexact =>
      cases h
      exact hexact.symm
    next => cases h
  · rintro ⟨hle, hexact⟩
    rw [← hexact, Nat.mul_div_cancel k (config_sampleRateHz_pos cfg)]
    exact if_pos ⟨rfl, hle⟩

theorem toneSteps_eq_none_iff {cfg : Config} {f : ℕ} :
    toneSteps cfg f = none ↔
      ¬ ∃ k ≤ numBins cfg, k * cfg.sampleRateHz = f * cfg.frameN := by
  have hsome : (toneBin cfg f).isSome = true ↔
      ∃ k ≤ numBins cfg, k * cfg.sampleRateHz = f * cfg.frameN := by
    simp only [Option.isSome_iff_exists, toneBin_eq_some_iff]
  rw [← hsome, toneSteps, Option.map_eq_none_iff, Option.not_isSome_iff_eq_none]

/-- Two steps' results put together fail exactly when one of the steps does. -/
theorem option_bind₂_eq_none_iff {α β γ : Type} (x : Option α) (y : Option β) (f : α → β → γ) :
    (do let a ← x; let b ← y; return f a b) = none ↔ x = none ∨ y = none := by
  cases x <;> cases y <;> simp

theorem doubledSteps_eq_none_iff (cfg : Config) (syms : List ℕ) :
    doubledSteps cfg syms = none ↔ ∃ n ∈ syms, symSteps cfg n = none := by
  induction syms with
  | nil => simp [doubledSteps]
  | cons n syms ih => exact (option_bind₂_eq_none_iff ..).trans (by simp [ih])

theorem packetSteps_eq_none_iff (cfg : Config) (syms : List ℕ) :
    packetSteps cfg syms = none ↔
      toneSteps cfg cfg.hsStartHz = none ∨ (∃ n ∈ syms, symSteps cfg n = none)
        ∨ toneSteps cfg cfg.hsEndHz = none := by
  rw [← doubledSteps_eq_none_iff]
  unfold packetSteps
  cases toneSteps cfg cfg.hsStartHz with
  | none => simp
  | some first => exact (option_bind₂_eq_none_iff ..).trans (by simp)

/-- An illegal line anywhere makes the lines illegal. -/
theorem linesSteps_eq_none_of_mem {cfg : Config} {l : ToneLine} {ls : List ToneLine} (hl : l ∈ ls)
    (hillegal : lineSteps cfg l = none) : linesSteps cfg ls = none := by
  induction ls with
  | nil => cases hl
  | cons m ls ih =>
    refine (option_bind₂_eq_none_iff ..).mpr ?_
    obtain rfl | hl := List.mem_cons.mp hl
    · exact .inl hillegal
    · exact .inr (ih hl)

theorem programSteps_eq_none_of_ne_reset (cfg : Config) {l : ToneLine} (hl : l ≠ .reset)
    (ls : List ToneLine) : programSteps cfg (l :: ls) = none := by
  cases l with
  | reset => exact absurd rfl hl
  | _ => rfl

theorem programSteps_eq_none_of_linesSteps {cfg : Config} {ls : List ToneLine}
    (hillegal : linesSteps cfg ls = none) : programSteps cfg ls = none := by
  cases ls with
  | nil => cases hillegal
  | cons l ls =>
    by_cases hl : l = .reset
    · subst hl
      exact hillegal
    · exact programSteps_eq_none_of_ne_reset cfg hl ls

theorem lineSteps_frame_eq_none_iff (cfg : Config) (k : ℕ) :
    lineSteps cfg (.frame k) = none ↔ numBins cfg < k := by
  simp [lineSteps]

theorem lineSteps_bytes_eq_none_iff (cfg : Config) (bs : List Byte) :
    lineSteps cfg (.bytes bs) = none ↔
      8 * bs.length % cfg.bits ≠ 0 ∨ lineSteps cfg (.packet (expand cfg.bits bs)) = none := by
  by_cases hwhole : 8 * bs.length % cfg.bits = 0
  · simp [lineSteps, hwhole]
  · simp [lineSteps, hwhole]

/-- Settles O59: each clause by the lemma about its line. -/
theorem illegalToneLinesRefused : Obligations.IllegalToneLinesRefused := by
  refine fun cfg l ls => ⟨?beforeReset, ?anywhere, ?tone, ?frame, ?sym, ?packet, ?bytes⟩
  case beforeReset => exact fun hl => programSteps_eq_none_of_ne_reset cfg hl ls
  case anywhere =>
    intro hillegal before after
    exact programSteps_eq_none_of_linesSteps (linesSteps_eq_none_of_mem (by simp) hillegal)
  case tone => exact fun f => toneSteps_eq_none_iff
  case frame => exact lineSteps_frame_eq_none_iff cfg
  case sym => exact fun n => toneSteps_eq_none_iff
  case packet => exact packetSteps_eq_none_iff cfg
  case bytes => exact lineSteps_bytes_eq_none_iff cfg

/-! ### Tone programs: a packet decodes to its symbols (R50; 43_framer.md R69, R71, R73) -/

/-! #### The frames of a packet -/

/-- The doubling convention: every tone is sent twice (R50). -/
def doubled (ks : List ℕ) : List ℕ := ks.flatMap fun k => [k, k]

theorem evenIdx_doubled (ks : List ℕ) : evenIdx (doubled ks) = ks := by
  induction ks with
  | nil => rfl
  | cons k ks ih =>
    change k :: evenIdx (doubled ks) = k :: ks
    rw [ih]

theorem length_doubled (ks : List ℕ) : (doubled ks).length = 2 * ks.length := by
  induction ks with
  | nil => rfl
  | cons k ks ih =>
    change (doubled ks).length + 2 = 2 * (ks.length + 1)
    omega

theorem mem_doubled {k : ℕ} {ks : List ℕ} : k ∈ doubled ks ↔ k ∈ ks := by
  simp [doubled]

/-- The bins of the data tones, one for each number sent. -/
def SymbolBins (cfg : Config) : List ℕ → List ℕ → Prop :=
  List.Forall₂ fun n k => toneBin cfg (symHz cfg n) = some k

theorem toneSteps_eq_some {cfg : Config} {f : ℕ} {ts : List ToneStep}
    (h : toneSteps cfg f = some ts) : ∃ k, toneBin cfg f = some k ∧ ts = [.frame k] := by
  obtain ⟨k, hk, hts⟩ := Option.map_eq_some_iff.mp h
  exact ⟨k, hk, hts.symm⟩

theorem doubledSteps_eq_some {cfg : Config} {syms : List ℕ} {ts : List ToneStep}
    (h : doubledSteps cfg syms = some ts) :
    ∃ ks, SymbolBins cfg syms ks ∧ ts = (doubled ks).map .frame := by
  induction syms generalizing ts with
  | nil =>
    cases h
    exact ⟨[], .nil, rfl⟩
  | cons n syms ih =>
    simp only [doubledSteps, Option.bind_eq_bind, Option.bind_eq_some_iff, Option.pure_def,
      Option.some.injEq] at h
    obtain ⟨one, hone, more, hmore, rfl⟩ := h
    obtain ⟨k, hk, rfl⟩ := toneSteps_eq_some hone
    obtain ⟨ks, hks, rfl⟩ := ih hmore
    exact ⟨k :: ks, .cons hk hks, rfl⟩

/-- `PACKET` is the frames of the start tone, each data tone twice, the end tone. -/
theorem packetSteps_eq_some {cfg : Config} {syms : List ℕ} {ts : List ToneStep}
    (h : packetSteps cfg syms = some ts) :
    ∃ first ks last, toneBin cfg cfg.hsStartHz = some first ∧ SymbolBins cfg syms ks
      ∧ toneBin cfg cfg.hsEndHz = some last
      ∧ ts = (first :: (doubled ks ++ [last])).map .frame := by
  simp only [packetSteps, Option.bind_eq_bind, Option.bind_eq_some_iff, Option.pure_def,
    Option.some.injEq] at h
  obtain ⟨_, hstart, _, hdata, _, hend, rfl⟩ := h
  obtain ⟨first, hfirst, rfl⟩ := toneSteps_eq_some hstart
  obtain ⟨ks, hks, rfl⟩ := doubledSteps_eq_some hdata
  obtain ⟨last, hlast, rfl⟩ := toneSteps_eq_some hend
  exact ⟨first, ks, last, hfirst, hks, hlast, by simp⟩

/-! #### What each tone is to the quantiser -/

/-- A bin of exactly the frequency `f` lies `f - H` hertz from `H`. -/
theorem scaledOffset_of_toneBin {cfg : Config} {f k : ℕ} (hk : toneBin cfg f = some k) (hz : ℕ) :
    scaledOffset cfg k hz = ((f : ℤ) - hz) * cfg.frameN := by
  obtain ⟨-, hexact⟩ := toneBin_eq_some_iff.mp hk
  have hexact : (k : ℤ) * cfg.sampleRateHz = f * cfg.frameN := by exact_mod_cast hexact
  rw [scaledOffset, hexact, sub_mul]

/-- A tone's own bin is within its tolerance. -/
theorem withinTol_of_toneBin {cfg : Config} {f k : ℕ} (hk : toneBin cfg f = some k) :
    withinTol cfg k f = true := by
  rw [withinTol, scaledOffset_of_toneBin hk, sub_self, zero_mul]
  exact decide_eq_true (Nat.mul_pos (by decide) (config_frameN_pos cfg))

theorem rne_mul_self (q : ℤ) {den : ℤ} (hden : 0 < den) : rne (q * den) den = q := by
  have hrem : q * den % den = 0 := Int.mul_emod_left q den
  obtain ⟨-, hq⟩ | ⟨habove, -⟩ | ⟨hhalf, -⟩ := rne_cases (q * den) den
  · rw [hq, Int.mul_ediv_cancel q hden.ne']
  · omega
  · omega

/-- The quantiser reads a data tone's number back when it is a symbol, and rejects it otherwise
(41_quantizer.md R58). -/
theorem quant_of_toneBin {cfg : Config} {n k : ℕ} (hk : toneBin cfg (symHz cfg n) = some k) :
    quant cfg k = if n < 2 ^ cfg.bits then some n else none := by
  have hoffset : scaledOffset cfg k cfg.startHz = (n : ℤ) * ((cfg.stepHz : ℤ) * cfg.frameN) := by
    rw [scaledOffset_of_toneBin hk, symHz]
    push_cast
    ring
  have hden : 0 < (cfg.stepHz : ℤ) * cfg.frameN := by
    exact_mod_cast Nat.mul_pos (config_stepHz_pos cfg) (config_frameN_pos cfg)
  have hrange : (0 ≤ (n : ℤ) ∧ (n : ℤ) < 2 ^ cfg.bits) ↔ n < 2 ^ cfg.bits := by
    constructor
    · exact fun h => by exact_mod_cast h.2
    · exact fun h => ⟨Int.natCast_nonneg n, by exact_mod_cast h⟩
  simp only [quant, hoffset, rne_mul_self _ hden, hrange, Int.toNat_natCast]

/-- The symbols quantised from a packet's data tones. -/
theorem filterMap_quant_of_symbolBins {cfg : Config} {syms ks : List ℕ}
    (hks : SymbolBins cfg syms ks) :
    ks.filterMap (quant cfg) = syms.filter (· < 2 ^ cfg.bits) := by
  induction hks with
  | nil => rfl
  | @cons n k syms ks hk _ ih =>
    rw [List.filterMap_cons, quant_of_toneBin hk, List.filter_cons, ih]
    by_cases hn : n < 2 ^ cfg.bits
    · simp [hn]
    · simp [hn]

/-- FINALIZE undoes the doubling (43_framer.md R75). -/
theorem finalize_doubled {cfg : Config} {syms ks : List ℕ} (hks : SymbolBins cfg syms ks) :
    finalize cfg (doubled ks) = assemble cfg.bits (syms.filter (· < 2 ^ cfg.bits)) := by
  rw [finalize, keepSome_eq_filterMap, evenIdx_doubled, filterMap_quant_of_symbolBins hks]

/-- A data tone is not taken for the end tone: a symbol's by R97 item 2, another number's by
hypothesis. -/
theorem hsEnd_of_toneBin {cfg : Config} {n k : ℕ} (hapart : cfg.tonesApart)
    (hbeyond : 2 ^ cfg.bits ≤ n → ∀ k ≤ numBins cfg,
      k * cfg.sampleRateHz = symHz cfg n * cfg.frameN → hsEnd cfg k = false)
    (hk : toneBin cfg (symHz cfg n) = some k) : hsEnd cfg k = false := by
  obtain ⟨hle, hexact⟩ := toneBin_eq_some_iff.mp hk
  by_cases hsym : n < 2 ^ cfg.bits
  · have hquant : quant cfg k ≠ none := by simp [quant_of_toneBin hk, hsym]
    exact (hapart k hle hquant).2
  · exact hbeyond (Nat.le_of_not_lt hsym) k hle hexact

/-- No data tone of the packet is taken for the end tone. -/
theorem hsEnd_of_symbolBins {cfg : Config} {syms ks : List ℕ} (hapart : cfg.tonesApart)
    (hbeyond : ∀ n ∈ syms, 2 ^ cfg.bits ≤ n → ∀ k ≤ numBins cfg,
      k * cfg.sampleRateHz = symHz cfg n * cfg.frameN → hsEnd cfg k = false)
    (hks : SymbolBins cfg syms ks) : ∀ k ∈ ks, hsEnd cfg k = false := by
  induction hks with
  | nil => nofun
  | cons hk _ ih =>
    obtain ⟨hn, hsyms⟩ := List.forall_mem_cons.mp hbeyond
    exact List.forall_mem_cons.mpr ⟨hsEnd_of_toneBin hapart hn hk, ih hsyms⟩

/-! #### The framer's transitions over the frames -/

theorem streamHandedOver_run (cfg : Config) (bs : List Byte) (st : Core) :
    (streamHandedOver cfg bs st).run = st.run := by
  unfold streamHandedOver
  split <;> rfl

theorem packetOverflowed_run (cfg : Config) (st : Core) :
    (packetOverflowed cfg st).run = st.run := by
  unfold packetOverflowed
  split <;> rfl

/-- The framer does not touch the run state. -/
theorem framerTable_run (cfg : Config) (k : ℕ) (st : Core) :
    (framerTable cfg k st).run = st.run := by
  apply framerTable_rows (P := fun c => c.run = st.run)
  case start => exact fun _ _ => rfl
  case other => exact fun _ _ => rfl
  case ended =>
    intro _
    rw [packetEnded_eq_closePacket, closePacket_run, apply_ite Core.run, streamHandedOver_run, ite_self]
  case full => exact fun _ => packetOverflowed_run ..
  case append => exact fun _ _ _ => rfl

theorem frameStep_cfg (k : ℕ) (cancel : Bool) (s : State) :
    (frameStep k cancel s).cfg = s.cfg := by
  rw [frameStep_eq]
  cases cancel <;> rfl

/-- Without `cancel`, frames run the framer's transition one after the other on a running core. -/
theorem runTones_frames_st {s : State} (ks : List ℕ) (hrun : s.st.run = .run) :
    (runTones (ks.map .frame) false s).st = ks.foldl (fun st k => framerTable s.cfg k st) s.st := by
  induction ks generalizing s with
  | nil => rfl
  | cons k ks ih =>
    have hst : (frameStep k false s).st = framerTable s.cfg k s.st := frameStep_st k false s
    have hrun' : (frameStep k false s).st.run = .run := by rw [hst, framerTable_run, hrun]
    simp only [List.map_cons, runTones, toneStep, hrun, if_true, List.foldl_cons]
    rw [ih hrun', hst, frameStep_cfg]

/-- The record with an open packet of the bins collected so far, none of them lost. -/
def packetOpen (bins : List ℕ) (st : Core) : Core :=
  { st with fr := .inPkt, pkt := bins, povf := false }

section
variable {cfg : Config} {st : Core} {bins : List ℕ} {k : ℕ}

/-- The start tone opens a packet (43_framer.md R69). -/
theorem framerTable_start (hidle : st.fr = .idle) (hstart : hsStart cfg k = true) :
    framerTable cfg k st = packetOpen [] st := by
  simp [framerTable, hidle, hstart, packetOpen]

/-- A tone that is no end tone is collected while there is room (43_framer.md R71). -/
theorem framerTable_packetOpen_append (hend : hsEnd cfg k = false) (hroom : bins.length < cfg.pktMax) :
    framerTable cfg k (packetOpen bins st) = packetOpen (bins ++ [k]) st := by
  simp [framerTable, packetOpen, hend, hroom.ne]

/-- Data tones that fit are collected in the order they are sent. -/
theorem foldl_framerTable_packetOpen {ks : List ℕ} (hend : ∀ k ∈ ks, hsEnd cfg k = false)
    (hroom : bins.length + ks.length ≤ cfg.pktMax) :
    ks.foldl (fun st k => framerTable cfg k st) (packetOpen bins st) = packetOpen (bins ++ ks) st := by
  induction ks generalizing bins with
  | nil => simp
  | cons k ks ih =>
    obtain ⟨hk, hks⟩ := List.forall_mem_cons.mp hend
    rw [List.length_cons] at hroom
    have hroom' : (bins ++ [k]).length + ks.length ≤ cfg.pktMax := by
      rw [List.length_append, List.length_singleton]
      omega
    rw [List.foldl_cons, framerTable_packetOpen_append hk (by omega), ih hks hroom',
      List.append_assoc, List.singleton_append]

/-- The end tone hands over a packet whose stream fits the queue (43_framer.md R73). -/
theorem framerTable_packetOpen_end (hend : hsEnd cfg k = true)
    (hroom : st.outq.length + (beatsOfStream (finalize cfg bins)).length ≤ cfg.outqDepth) :
    framerTable cfg k (packetOpen bins st)
      = closePacket (outqPush (beatsOfStream (finalize cfg bins)) st) := by
  simp [framerTable, packetOpen, hend, packetEnded, streamHandedOver, hroom, closePacket, outqPush]

end

/-- Settles O58: the start tone opens the packet, the data tones are collected, the end tone hands over
what FINALIZE makes of them. -/
theorem packetDecodesToItsSymbols : Obligations.PacketDecodesToItsSymbols := by
  intro s syms ts hapart hts hbeyond hrun hidle houtq hpovf hpkt hfits hroom
  obtain ⟨first, ks, last, hfirst, hks, hlast, rfl⟩ := packetSteps_eq_some hts
  have hstart : framerTable s.cfg first s.st = packetOpen [] s.st :=
    framerTable_start hidle (withinTol_of_toneBin hfirst)
  have hcollect : (doubled ks).foldl (fun st k => framerTable s.cfg k st) (packetOpen [] s.st)
      = packetOpen (doubled ks) s.st :=
    foldl_framerTable_packetOpen
      (fun k hk => hsEnd_of_symbolBins hapart hbeyond hks k (mem_doubled.mp hk))
      (by rwa [length_doubled, ← hks.length_eq, List.length_nil, Nat.zero_add])
  have hend : framerTable s.cfg last (packetOpen (doubled ks) s.st)
      = closePacket (outqPush (beatsOfStream (finalize s.cfg (doubled ks))) s.st) :=
    framerTable_packetOpen_end (withinTol_of_toneBin hlast)
      (by rwa [finalize_doubled hks, houtq, List.length_nil, Nat.zero_add])
  rw [runTones_frames_st _ hrun, List.foldl_cons, hstart, List.foldl_append, hcollect,
    List.foldl_cons, List.foldl_nil, hend, finalize_doubled hks]
  simp only [closePacket, outqPush, houtq, List.nil_append, hidle, hpkt, hpovf]

end Sys2Proof.Machine
end

section
/-!
PROOF. 40_spectral.md: SAMPLE (R51), PEAK as the exact search and its conformance (R52, R54), its
agreement with the search over all N bins (R53), BIN2HZ (R56), and the rejection of frequency 0 (R57).
-/
namespace Sys2Proof.Machine

/-! ### SAMPLE (R51) -/

theorem exec_sample (s : State) :
    exec .sample s = .next (acceptSample s.ports.sData s.ports.cancel s) := rfl

theorem exec_sample_of_not_run {s : State} (hterm : s.st.run ≠ .run) : exec .sample s = .next s := by
  rw [exec_sample, acceptSample, if_pos hterm]

theorem exec_sample_of_partial {s : State} (hrun : s.st.run = .run)
    (hlen : s.st.fbuf.length + 1 < s.cfg.frameN) :
    exec .sample s = .next (logWord 0x20#8 (setCore (fbufAppend s.ports.sData s.st) s)) := by
  rw [exec_sample, acceptSample, if_neg (not_not_intro hrun), if_pos hlen]

theorem exec_sample_of_completesFrame {s : State} (hdone : s.completesFrame) :
    exec .sample s = .next (frameStep s.completedBin s.ports.cancel s.atBoundary) := by
  obtain ⟨hrun, hlen⟩ := hdone
  rw [exec_sample, acceptSample, if_neg (not_not_intro hrun), if_neg (Nat.not_lt.mpr hlen)]
  rfl

/-- The frame step of a completed frame, in terms of the state before its last sample: the buffer is
already empty, and the sample's word stands before the frame's. -/
theorem afterFrameWord_atBoundary (s : State) (k : ℕ) :
    afterFrameWord s.atBoundary (frameStepWord s.cfg k s.atBoundary.st) k
        (framerTable s.cfg k s.atBoundary.st)
      = { s with
          st := framerTable s.cfg k { s.st with fbuf := [] }
          frOut := some { bin := k, cls := classify s.cfg k }
          obs :=
            { s.obs with
              words := s.obs.words ++ [0x20#8, frameStepWord s.cfg k s.st]
              frames := s.obs.frames ++ [{ bin := k, cls := classify s.cfg k }] } } := by
  have hwords : (s.obs.words ++ [0x20#8]) ++ [frameStepWord s.cfg k s.st]
      = s.obs.words ++ [0x20#8, frameStepWord s.cfg k s.st] := List.append_assoc ..
  rw [← hwords]
  rfl

/-- Settles O21: the completing sample is the frame step at the emptied buffer, with no STOP. -/
theorem sampleCompletesFrame : Obligations.SampleCompletesFrame := by
  rintro s k hrun hlen hcancel rfl
  rw [exec_sample_of_completesFrame ⟨hrun, hlen.ge⟩, hcancel, frameStep_eq]
  exact congrArg Host.Outcome.next (afterFrameWord_atBoundary s s.completedBin)

/-- Settles O19: the first branch of SAMPLE. -/
theorem sampleIgnoredOutsideRun : Obligations.SampleIgnoredOutsideRun :=
  fun _ => exec_sample_of_not_run

/-- Settles O20: the sample is appended and its word logged. -/
theorem sampleJoinsFrame : Obligations.SampleJoinsFrame :=
  fun _ => exec_sample_of_partial

/-! ### The power spectrum (R52, R53) -/

theorem dftPower_nonneg (N : ℕ) (x : List Sample) (k : ℕ) : 0 ≤ dftPower N x k :=
  add_nonneg (sq_nonneg _) (sq_nonneg _)

/-- The conjugate symmetry of the transform of real samples (R53). -/
theorem dftPower_sub {N k : ℕ} (x : List Sample) (hN : 0 < N) (hk : k ≤ N) :
    dftPower N x (N - k) = dftPower N x k := by
  have hN' : (N : ℝ) ≠ 0 := by exact_mod_cast hN.ne'
  rw [dftPower_eq N x (N - k) hN, dftPower_eq N x k hN]
  refine Finset.sum_congr rfl fun d _ => ?_
  have hangle : 2 * Real.pi * ((d * (N - k) : ℕ) : ℝ) / N
      = d * (2 * Real.pi) - 2 * Real.pi * ((d * k : ℕ) : ℝ) / N := by
    push_cast [Nat.cast_sub hk]
    field_simp
  rw [hangle, Real.cos_nat_mul_two_pi_sub]

/-! #### Silence -/

theorem silent_iff (N : ℕ) (x : List Sample) :
    silent N x = true ↔ ∀ n < N, sampleAt x n = 0 := by
  simp [silent]

theorem silent_of_forall_mem_eq_zero {x : List Sample} (N : ℕ) (hx : ∀ v ∈ x, v = 0#16) :
    silent N x = true := by
  rw [silent_iff]
  intro n _
  have hget : x.getD n 0 = 0#16 := by
    by_cases hn : n < x.length
    · rw [List.getD_eq_getElem x 0 hn]
      exact hx _ (List.getElem_mem hn)
    · exact List.getD_eq_default x 0 (Nat.le_of_not_lt hn)
  rw [sampleAt, hget]
  rfl

/-- A silent frame has no power in any bin. -/
theorem dftPower_of_silent {N : ℕ} {x : List Sample} (hsilent : silent N x = true) (k : ℕ) :
    dftPower N x k = 0 := by
  have hzero : ∀ n ∈ Finset.range N, sampleAt x n = 0 :=
    fun n hn => (silent_iff N x).mp hsilent n (Finset.mem_range.mp hn)
  have hcos : dftCos N x k = 0 := Finset.sum_eq_zero fun n hn => by rw [hzero n hn]; simp
  have hsin : dftSin N x k = 0 := Finset.sum_eq_zero fun n hn => by rw [hzero n hn]; simp
  rw [dftPower, hcos, hsin]
  norm_num

/-! ### The exact search (R52) -/

section
variable {N : ℕ} {x : List Sample}

/-- One more bin: it is the lowest greatest bin when it beats the best so far, which otherwise stays. -/
theorem isLeast_greatestBins_succ {n best : ℕ} (h : IsLeast (greatestBins n N x) best) :
    IsLeast (greatestBins (n + 1) N x)
      (if dftPower N x best < dftPower N x n then n else best) := by
  obtain ⟨⟨hlt, hmax⟩, hleast⟩ := h
  split
  next hbeats =>
    refine ⟨⟨n.lt_succ_self, fun j hj => ?_⟩, fun b hb => ?_⟩
    · obtain hj | rfl := Nat.lt_succ_iff_lt_or_eq.mp hj
      · exact (hmax j hj).trans hbeats.le
      · exact le_rfl
    · obtain ⟨hbn, hbmax⟩ := hb
      by_contra hlow
      have hbest : dftPower N x n ≤ dftPower N x best :=
        (hbmax n n.lt_succ_self).trans (hmax b (Nat.lt_of_not_le hlow))
      exact hbeats.not_ge hbest
  next hstays =>
    refine ⟨⟨hlt.trans n.lt_succ_self, fun j hj => ?_⟩, fun b hb => ?_⟩
    · obtain hj | rfl := Nat.lt_succ_iff_lt_or_eq.mp hj
      · exact hmax j hj
      · exact not_lt.mp hstays
    · obtain ⟨hbn, hbmax⟩ := hb
      obtain hbn | rfl := Nat.lt_succ_iff_lt_or_eq.mp hbn
      · exact hleast ⟨hbn, fun j hj => hbmax j (hj.trans n.lt_succ_self)⟩
      · exact hlt.le

/-- The scan keeps the lowest greatest bin of those seen. -/
theorem scanPeak_isLeast {gt : ℕ → ℕ → Bool}
    (hgt : ∀ k j, gt k j = true ↔ dftPower N x j < dftPower N x k) (f k best : ℕ)
    (h : IsLeast (greatestBins k N x) best) :
    IsLeast (greatestBins (k + f) N x) (scanPeak gt f k best) := by
  induction f generalizing k best with
  | zero => exact h
  | succ f ih =>
    rw [scanPeak, show k + (f + 1) = k + 1 + f by omega]
    refine ih (k + 1) _ ?_
    simp only [hgt]
    exact isLeast_greatestBins_succ h

/-- The search in integers is R52's search of the real powers. -/
theorem exactPeak_isLeast (hN : 0 < N) (x : List Sample) :
    IsLeast (greatestBins (N / 2 + 1) N x) (exactPeak N x) := by
  have hgt : ∀ k j, powGt N (lowCosines N) (autocorrList N x) 1 k 1 j = true
      ↔ dftPower N x j < dftPower N x k := fun k j => by
    simpa only [Nat.cast_one, one_mul] using powGt_iff hN x 1 k 1 j
  have hfirst : IsLeast (greatestBins 1 N x) 0 := by
    refine ⟨⟨Nat.one_pos, fun j hj => ?_⟩, fun _ _ => Nat.zero_le _⟩
    rw [Nat.lt_one_iff.mp hj]
  rw [Nat.add_comm]
  exact scanPeak_isLeast hgt (N / 2) 1 0 hfirst

theorem exactPeak_of_silent (hN : 0 < N) (hsilent : silent N x = true) : exactPeak N x = 0 := by
  have hzero : 0 ∈ greatestBins (N / 2 + 1) N x :=
    ⟨Nat.succ_pos _, fun j _ => by rw [dftPower_of_silent hsilent, dftPower_of_silent hsilent]⟩
  exact Nat.le_zero.mp ((exactPeak_isLeast hN x).2 hzero)

/-- A bin that beats every other is the one the search answers. -/
theorem exactPeak_of_beats_all (hN : 0 < N) {k : ℕ} (hk : k ≤ N / 2)
    (hbeats : ∀ j ≤ N / 2, j ≠ k → dftPower N x j < dftPower N x k) : exactPeak N x = k := by
  obtain ⟨⟨hlt, hmax⟩, -⟩ := exactPeak_isLeast hN x
  by_contra hne
  exact (hbeats _ (Nat.le_of_lt_succ hlt) hne).not_ge (hmax k (Nat.lt_succ_of_le hk))

/-! #### The search over all N bins (R53) -/

/-- Every bin has a bin of 0 to NB of the same power, at most as high. -/
theorem exists_le_half_dftPower_eq {i : ℕ} (x : List Sample) (hi : i < N) :
    ∃ j ≤ N / 2, j ≤ i ∧ dftPower N x j = dftPower N x i := by
  by_cases hlow : i ≤ N / 2
  · exact ⟨i, hlow, le_rfl, rfl⟩
  · exact ⟨N - i, by omega, by omega, dftPower_sub x (by omega) hi.le⟩

/-- The lowest greatest bin of 0 to NB is that of all N bins. -/
theorem isLeast_greatestBins_all {k : ℕ} (hN : 2 ≤ N)
    (h : IsLeast (greatestBins (N / 2 + 1) N x) k) : IsLeast (greatestBins N N x) k := by
  obtain ⟨⟨hlt, hmax⟩, hleast⟩ := h
  refine ⟨⟨by omega, fun i hi => ?_⟩, fun b hb => ?_⟩
  · obtain ⟨j, hj, -, hpow⟩ := exists_le_half_dftPower_eq x hi
    exact hpow ▸ hmax j (Nat.lt_succ_of_le hj)
  · obtain ⟨hbN, hbmax⟩ := hb
    obtain ⟨j, hj, hjb, hpow⟩ := exists_le_half_dftPower_eq x hbN
    have hmem : j ∈ greatestBins (N / 2 + 1) N x :=
      ⟨Nat.lt_succ_of_le hj, fun i hi => hpow ▸ hbmax i (by omega)⟩
    exact (hleast hmem).trans hjb

end

/-! ### The core's peak function (R54) -/

theorem config_two_le_frameN (cfg : Config) : 2 ≤ cfg.frameN :=
  ((params_inRange_iff _).mp cfg.inRange).2.1

theorem config_peakEps_nonneg (cfg : Config) : 0 ≤ cfg.peakEps := by
  obtain ⟨-, -, -, -, -, -, -, heps, -⟩ := (params_inRange_iff _).mp cfg.inRange
  exact heps

/-- The margin test in integers is R54 (c)'s comparison of real powers. -/
theorem clearPeak_iff {N : ℕ} (hN : 0 < N) {eps : ℚ} (heps : 0 ≤ eps) (x : List Sample) (k : ℕ) :
    clearPeak N eps x k = true ↔
      ∀ j ≤ N / 2, j ≠ k → (1 + (eps : ℝ)) * dftPower N x j < dftPower N x k := by
  have hden : (0 : ℝ) < eps.den := by exact_mod_cast eps.den_pos
  have hmargin : ((eps.den + eps.num.toNat : ℕ) : ℝ) = eps.den * (1 + (eps : ℝ)) := by
    have hnum : ((eps.num.toNat : ℕ) : ℝ) = eps.num := by
      exact_mod_cast Int.toNat_of_nonneg (Rat.num_nonneg.mpr heps)
    rw [Nat.cast_add, hnum, Rat.cast_def]
    field_simp
  have hbeats : ∀ j, powGt N (lowCosines N) (autocorrList N x) eps.den k
        (eps.den + eps.num.toNat) j = true
      ↔ (1 + (eps : ℝ)) * dftPower N x j < dftPower N x k := fun j => by
    rw [powGt_iff hN, hmargin, mul_assoc, mul_lt_mul_iff_right₀ hden]
  simp only [clearPeak, List.all_eq_true, List.mem_range, Bool.or_eq_true, decide_eq_true_eq,
    hbeats, Nat.lt_succ_iff, or_iff_not_imp_left]

theorem peakBin_of_silent {cfg : Config} {x : List Sample} (hsilent : silent cfg.frameN x = true) :
    peakBin cfg x = 0 := if_pos hsilent

/-- With `PEAK_EPS` = 0 the peak function is the exact search, for silence as well. -/
theorem peakBin_of_peakEps_eq_zero {cfg : Config} (heps : cfg.peakEps = 0) (x : List Sample) :
    peakBin cfg x = exactPeak cfg.frameN x := by
  by_cases hsilent : silent cfg.frameN x = true
  · rw [peakBin_of_silent hsilent, exactPeak_of_silent (config_frameN_pos cfg) hsilent]
  · rw [peakBin, if_neg hsilent]
    exact if_pos (Rat.num_eq_zero.mpr heps)

/-- A clear peak of a frame that is not silent is answered whatever `PEAK_EPS` is. -/
theorem peakBin_of_clearPeak {cfg : Config} {x : List Sample}
    (hsound : ¬ silent cfg.frameN x = true)
    (hclear : clearPeak cfg.frameN cfg.peakEps x (exactPeak cfg.frameN x) = true) :
    peakBin cfg x = exactPeak cfg.frameN x := by
  simp only [peakBin, if_neg hsound, if_pos hclear, ite_self]

theorem peakBin_isLeast {cfg : Config} (heps : cfg.peakEps = 0) (x : List Sample) :
    IsLeast (greatestBins (numBins cfg + 1) cfg.frameN x) (peakBin cfg x) := by
  rw [peakBin_of_peakEps_eq_zero heps]
  exact exactPeak_isLeast (config_frameN_pos cfg) x

/-- R54 (c): a bin that beats every other by the margin is the result. -/
theorem peakBin_of_beats_by_margin {cfg : Config} {x : List Sample} {k : ℕ} (hk : k ≤ numBins cfg)
    (hmargin : ∀ j ≤ numBins cfg, j ≠ k →
      (1 + (cfg.peakEps : ℝ)) * dftPower cfg.frameN x j < dftPower cfg.frameN x k) :
    peakBin cfg x = k := by
  have hN := config_frameN_pos cfg
  have heps : (0 : ℝ) ≤ cfg.peakEps := by exact_mod_cast config_peakEps_nonneg cfg
  have hsound : ¬ silent cfg.frameN x = true := by
    intro hsilent
    obtain ⟨j, hj, hne⟩ : ∃ j ≤ numBins cfg, j ≠ k := by
      have hNB : 1 ≤ numBins cfg := Nat.div_pos (config_two_le_frameN cfg) Nat.two_pos
      obtain rfl | hpos := Nat.eq_zero_or_pos k
      · exact ⟨1, hNB, Nat.one_ne_zero⟩
      · exact ⟨0, Nat.zero_le _, hpos.ne⟩
    have hlt := hmargin j hj hne
    rw [dftPower_of_silent hsilent, dftPower_of_silent hsilent, mul_zero] at hlt
    exact lt_irrefl _ hlt
  have hexact : exactPeak cfg.frameN x = k :=
    exactPeak_of_beats_all hN hk fun j hj hne => by
      refine lt_of_le_of_lt ?_ (hmargin j hj hne)
      exact le_mul_of_one_le_left (dftPower_nonneg ..) (by linarith)
  have hclear : clearPeak cfg.frameN cfg.peakEps x (exactPeak cfg.frameN x) = true := by
    rw [hexact]
    exact (clearPeak_iff hN (config_peakEps_nonneg cfg) x k).mpr hmargin
  rw [peakBin_of_clearPeak hsound hclear, hexact]

/-- Settles O38: R54 (a) to (d). -/
theorem peakFunctionConforms : Obligations.PeakFunctionConforms := fun cfg =>
  { inRange := fun x _ => peakBin_le_numBins cfg x
    silence := fun _ _ hzero => peakBin_of_silent (silent_of_forall_mem_eq_zero _ hzero)
    clear := fun _ _ _ hk hmargin => peakBin_of_beats_by_margin hk hmargin
    exact := fun heps x _ => peakBin_isLeast heps x }

/-! ### PEAK (R52) -/

theorem exec_peak_of_frame {s : State} (hframe : s.args.frame.length = s.cfg.frameN) :
    exec .peak s = .next { s with ret := .bin (peakBin s.cfg s.args.frame) } := if_pos hframe

theorem exec_peak_refused {s : State} (hframe : s.args.frame.length ≠ s.cfg.frameN) :
    exec .peak s = .refused .notAFrame := if_neg hframe

/-- Settles O36: PEAK's two branches. -/
theorem peakUnitAnswersPeakBin : Obligations.PeakUnitAnswersPeakBin :=
  fun _ => ⟨exec_peak_of_frame, exec_peak_refused⟩

/-- Settles O37: PEAK answers the peak function, which is the exact search. -/
theorem peakIsLowestGreatestBin : Obligations.PeakIsLowestGreatestBin :=
  fun _ hframe heps => ⟨_, exec_peak_of_frame hframe, peakBin_isLeast heps _⟩

/-! ### BIN2HZ (R56), and the two readings of a bin index (R53) -/

theorem bin2hz_eq (cfg : Config) (k : ℕ) :
    bin2hz cfg k = (k : ℚ) * cfg.sampleRateHz / cfg.frameN := by
  rw [bin2hz, Rat.mkRat_eq_div]
  push_cast
  rfl

theorem bin2hz_nonneg (cfg : Config) (k : ℕ) : 0 ≤ bin2hz cfg k := by
  rw [bin2hz_eq]
  positivity

/-- No bin lies above the Nyquist frequency. -/
theorem bin2hz_le_half {cfg : Config} {k : ℕ} (hk : k ≤ numBins cfg) :
    bin2hz cfg k ≤ (cfg.sampleRateHz : ℚ) / 2 := by
  have hN : (0 : ℚ) < cfg.frameN := by exact_mod_cast config_frameN_pos cfg
  have hk2 : (k : ℚ) * 2 ≤ cfg.frameN := by
    exact_mod_cast (Nat.mul_le_mul_right 2 hk).trans (Nat.div_mul_le_self cfg.frameN 2)
  rw [bin2hz_eq, div_le_div_iff₀ hN two_pos]
  calc (k : ℚ) * cfg.sampleRateHz * 2 = (k * 2) * cfg.sampleRateHz := by ring
    _ ≤ cfg.frameN * cfg.sampleRateHz := by gcongr
    _ = cfg.sampleRateHz * cfg.frameN := mul_comm _ _

/-- The search's `abs(i/N)*R` is BIN2HZ for an index that is not negative. -/
theorem abs_div_mul_eq_bin2hz (cfg : Config) (k : ℕ) :
    |(k : ℚ) / cfg.frameN| * cfg.sampleRateHz = bin2hz cfg k := by
  rw [bin2hz_eq, abs_of_nonneg (by positivity), div_mul_eq_mul_div]

/-- Up to NB the signed index is the unsigned one. -/
theorem signedBin_of_le {N k : ℕ} (hk : k ≤ N / 2) : signedBin N k = k := if_pos hk

/-- Settles O39: PEAK's bin is also the first maximum over all N bins, and it is at most NB, where the
two readings of the index agree. -/
theorem peakAgreesWithFullSpectrum : Obligations.PeakAgreesWithFullSpectrum := by
  intro s hframe heps
  have hle : peakBin s.cfg s.args.frame ≤ s.cfg.frameN / 2 := peakBin_le_numBins ..
  refine ⟨peakBin s.cfg s.args.frame, exec_peak_of_frame hframe, ?fullSearch, ?unsigned, ?signed⟩
  case fullSearch =>
    exact isLeast_greatestBins_all (config_two_le_frameN s.cfg) (peakBin_isLeast heps _)
  case unsigned => exact abs_div_mul_eq_bin2hz ..
  case signed =>
    rw [signedBin_of_le hle, Int.cast_natCast]
    exact abs_div_mul_eq_bin2hz ..

/-- Settles O40: the exact quotient and its bounds. -/
theorem bin2HzIsExactFrequency : Obligations.Bin2HzIsExactFrequency := fun s =>
  ⟨bin2hz s.cfg s.args.bin, rfl, bin2hz_eq .., fun hk => ⟨bin2hz_nonneg .., bin2hz_le_half hk⟩⟩

/-! ### Frequency 0 (R57) -/

/-- Nothing at most 0 rounds to a positive integer. -/
theorem rne_nonpos {num den : ℤ} (hden : 0 < den) (hnum : num ≤ 0) : rne num den ≤ 0 := by
  have herr := two_mul_abs_sub_rne_le (num := num) hden
  have habs := neg_le_abs (num - rne num den * den)
  by_contra hpos
  have hmul : 1 * den ≤ rne num den * den := Int.mul_le_mul_of_nonneg_right (by omega) hden.le
  omega

/-- A quotient rounds below 0 exactly when it lies below -1/2: at -1/2 itself the even neighbour is 0
(00_scope.md R10). -/
theorem rne_neg_iff {num den : ℤ} (hden : 0 < den) : rne num den < 0 ↔ 2 * num < -den := by
  have herr := two_mul_abs_sub_rne_le (num := num) hden
  constructor
  · intro hneg
    have hmul : rne num den * den ≤ -1 * den :=
      Int.mul_le_mul_of_nonneg_right (by omega) hden.le
    have habs := le_abs_self (num - rne num den * den)
    by_contra hlow
    have hhalf : 2 * |num - rne num den * den| = den := by omega
    have hone : rne num den = -1 := mul_right_cancel₀ hden.ne' (by omega : _ = -1 * den)
    have heven := even_rne_of_half hden hhalf
    rw [hone] at heven
    exact absurd heven (by decide)
  · intro hlow
    have habs := neg_le_abs (num - rne num den * den)
    by_contra hnonneg
    have hmul : 0 ≤ rne num den * den := Int.mul_nonneg (by omega) hden.le
    omega

theorem quant_eq_none_iff (cfg : Config) (k : ℕ) :
    quant cfg k = none ↔
      ¬ (0 ≤ rne (scaledOffset cfg k cfg.startHz) ((cfg.stepHz : ℤ) * cfg.frameN)
        ∧ rne (scaledOffset cfg k cfg.startHz) ((cfg.stepHz : ℤ) * cfg.frameN) < 2 ^ cfg.bits) := by
  simp only [quant, ite_eq_right_iff, reduceCtorEq, imp_false]

/-- Settles O43: the offset of bin 0 is `-START_HZ*N`, which is not above 0, so only a symbol below 0
rejects it. -/
theorem silenceRejectedExactlyWhen : Obligations.SilenceRejectedExactlyWhen := by
  intro cfg
  have hN : (0 : ℤ) < cfg.frameN := by exact_mod_cast config_frameN_pos cfg
  have hden : 0 < (cfg.stepHz : ℤ) * cfg.frameN := by
    exact_mod_cast Nat.mul_pos (config_stepHz_pos cfg) (config_frameN_pos cfg)
  have hoffset : scaledOffset cfg 0 cfg.startHz = -((cfg.startHz : ℤ) * cfg.frameN) := by
    simp [scaledOffset]
  have hnonpos : rne (-((cfg.startHz : ℤ) * cfg.frameN)) ((cfg.stepHz : ℤ) * cfg.frameN) ≤ 0 :=
    rne_nonpos hden (neg_nonpos.mpr (by positivity))
  have hbelow : rne (-((cfg.startHz : ℤ) * cfg.frameN)) ((cfg.stepHz : ℤ) * cfg.frameN)
      < 2 ^ cfg.bits := hnonpos.trans_lt (by positivity)
  rw [quant_eq_none_iff, hoffset, and_iff_left hbelow, not_le, rne_neg_iff hden,
    Config.silenceRejected]
  calc 2 * -((cfg.startHz : ℤ) * cfg.frameN) < -((cfg.stepHz : ℤ) * cfg.frameN)
      ↔ (cfg.stepHz : ℤ) * cfg.frameN < 2 * cfg.startHz * cfg.frameN := by
        constructor <;> intro h <;> linarith
    _ ↔ (cfg.stepHz : ℤ) < 2 * cfg.startHz := mul_lt_mul_iff_left₀ hN
    _ ↔ cfg.stepHz < 2 * cfg.startHz := by exact_mod_cast Iff.rfl

end Sys2Proof.Machine
end

section
/-!
PROOF. 41_quantizer.md: QUANT as the nearest symbol in range (R59), the handshake predicates as windows
in hertz (R60, R61), and CLASSIFY (R62; 30_encoding.md R43).
-/
namespace Sys2Proof.Machine

/-! ### The rounding of R10, characterised -/

/-- `q` is a nearest integer to `num/den`, and the even one at an exact half (00_scope.md R10). -/
def NearestEven (num den q : ℤ) : Prop :=
  2 * |num - q * den| ≤ den ∧ (2 * |num - q * den| = den → Even q)

theorem nearestEven_rne {num den : ℤ} (hden : 0 < den) : NearestEven num den (rne num den) :=
  ⟨two_mul_abs_sub_rne_le hden, even_rne_of_half hden⟩

/-- No such integer exceeds another: the two would be consecutive, with `num/den` halfway between them,
and both even. -/
theorem NearestEven.le {num den p q : ℤ} (hden : 0 < den) (hp : NearestEven num den p)
    (hq : NearestEven num den q) : q ≤ p := by
  obtain ⟨herrp, hevenp⟩ := hp
  obtain ⟨herrq, hevenq⟩ := hq
  have habove := le_abs_self (num - p * den)
  have hbelow := neg_le_abs (num - q * den)
  by_contra! hlt
  have hgap : (p + 1) * den ≤ q * den := Int.mul_le_mul_of_nonneg_right hlt hden.le
  rw [add_one_mul] at hgap
  have hsucc : q = p + 1 := mul_right_cancel₀ hden.ne' (by rw [add_one_mul]; omega)
  have hparity : Even (p + 1) := hsucc ▸ hevenq (by omega)
  exact Int.even_add_one.mp hparity (hevenp (by omega))

theorem rne_eq_iff {num den q : ℤ} (hden : 0 < den) : rne num den = q ↔ NearestEven num den q := by
  constructor
  · rintro rfl
    exact nearestEven_rne hden
  · exact fun hq => (hq.le hden (nearestEven_rne hden)).antisymm ((nearestEven_rne hden).le hden hq)

/-- The distance from the quotient itself, an exact rational. -/
theorem two_mul_abs_div_sub {num den : ℤ} (q : ℤ) (hden : 0 < den) :
    2 * |(num : ℚ) / den - q| = ((2 * |num - q * den| : ℤ) : ℚ) / den := by
  have hden' : (0 : ℚ) < den := by exact_mod_cast hden
  rw [div_sub' hden'.ne', abs_div, abs_of_pos hden', mul_comm (den : ℚ), ← mul_div_assoc]
  push_cast
  rfl

theorem nearestEven_iff_quotient {num den q : ℤ} (hden : 0 < den) :
    NearestEven num den q ↔
      2 * |(num : ℚ) / den - q| ≤ 1 ∧ (2 * |(num : ℚ) / den - q| = 1 → Even q) := by
  have hden' : (0 : ℚ) < den := by exact_mod_cast hden
  rw [two_mul_abs_div_sub q hden, div_le_one hden', div_eq_one_iff_eq hden'.ne', Int.cast_le,
    Int.cast_inj, NearestEven]

/-! ### A bin's distance from a frequency (R58, R60, R61) -/

/-- The integer form over N is the distance in hertz. -/
theorem scaledOffset_div_frameN (cfg : Config) (k hz : ℕ) :
    (scaledOffset cfg k hz : ℚ) / cfg.frameN = (k : ℚ) * cfg.sampleRateHz / cfg.frameN - hz := by
  have hN : (cfg.frameN : ℚ) ≠ 0 := by exact_mod_cast (config_frameN_pos cfg).ne'
  rw [scaledOffset, div_sub' hN]
  push_cast
  ring

/-! ### QUANT (R58, R59) -/

theorem quant_eq_some_iff {cfg : Config} {k q : ℕ} :
    quant cfg k = some q ↔
      q < 2 ^ cfg.bits ∧ rne (scaledOffset cfg k cfg.startHz) ((cfg.stepHz : ℤ) * cfg.frameN) = q := by
  simp only [quant, Option.ite_none_right_eq_some, Option.some_inj]
  constructor
  · rintro ⟨⟨hnonneg, hlt⟩, rfl⟩
    exact ⟨by zify; rwa [Int.toNat_of_nonneg hnonneg], (Int.toNat_of_nonneg hnonneg).symm⟩
  · rintro ⟨hlt, hq⟩
    rw [hq]
    exact ⟨⟨Int.natCast_nonneg q, by exact_mod_cast hlt⟩, Int.toNat_natCast q⟩

/-- Settles O42: QUANT rounds the exact quotient `(f - START_HZ)/STEP_HZ`, and its rounding answers the
one integer R10 allows. -/
theorem quantIsNearestSymbol : Obligations.QuantIsNearestSymbol := by
  refine fun s => ⟨quant s.cfg s.args.bin, rfl, fun q => ?_⟩
  have hden : 0 < (s.cfg.stepHz : ℤ) * s.cfg.frameN := by
    exact_mod_cast Nat.mul_pos (config_stepHz_pos s.cfg) (config_frameN_pos s.cfg)
  have hquotient : (scaledOffset s.cfg s.args.bin s.cfg.startHz : ℚ)
      / ((s.cfg.stepHz : ℤ) * s.cfg.frameN : ℤ)
        = ((s.args.bin : ℚ) * s.cfg.sampleRateHz / s.cfg.frameN - s.cfg.startHz) / s.cfg.stepHz := by
    rw [← scaledOffset_div_frameN, div_div, mul_comm (s.cfg.frameN : ℚ)]
    push_cast
    rfl
  rw [quant_eq_some_iff, rne_eq_iff hden, nearestEven_iff_quotient hden, hquotient, Int.cast_natCast,
    Int.even_coe_nat]

/-! ### The handshake predicates (R60, R61) -/

/-- The integer comparison of R60 and R61 is the strict window in hertz. -/
theorem withinTol_iff (cfg : Config) (k hz : ℕ) :
    withinTol cfg k hz = true ↔ |(k : ℚ) * cfg.sampleRateHz / cfg.frameN - hz| < 20 := by
  have hN : (0 : ℚ) < cfg.frameN := by exact_mod_cast config_frameN_pos cfg
  rw [← scaledOffset_div_frameN, abs_div, abs_of_pos hN, div_lt_iff₀ hN, withinTol, decide_eq_true_iff,
    tolHz, ← Nat.cast_lt (α := ℚ), Nat.cast_natAbs]
  push_cast
  rfl

/-- Settles O44: the window about `HS_START_HZ`. -/
theorem hsStartStrictlyWithinTolerance : Obligations.HsStartStrictlyWithinTolerance :=
  fun s => ⟨hsStart s.cfg s.args.bin, rfl, withinTol_iff ..⟩

/-- Settles O45: the window about `HS_END_HZ`. -/
theorem hsEndStrictlyWithinTolerance : Obligations.HsEndStrictlyWithinTolerance :=
  fun s => ⟨hsEnd s.cfg s.args.bin, rfl, withinTol_iff ..⟩

/-! ### CLASSIFY (R62) -/

theorem clsOf_getLsbD_zero : ∀ hs he : Bool, (clsOf hs he).getLsbD 0 = hs := by decide

theorem clsOf_getLsbD_one : ∀ hs he : Bool, (clsOf hs he).getLsbD 1 = he := by decide

theorem clsOf_eq_both_iff : ∀ hs he : Bool, clsOf hs he = 0b11#2 ↔ hs = true ∧ he = true := by decide

/-- A bin within the tolerance of two frequencies keeps them closer than twice the tolerance
(30_encoding.md R43). -/
theorem natAbs_sub_lt_of_withinTol {cfg : Config} {k a b : ℕ} (ha : withinTol cfg k a = true)
    (hb : withinTol cfg k b = true) : ((a : ℤ) - b).natAbs < 2 * tolHz := by
  rw [withinTol_iff, abs_sub_comm] at ha
  rw [withinTol_iff] at hb
  have hclose : |(a : ℚ) - b| < 40 :=
    calc |(a : ℚ) - b|
        ≤ |a - (k : ℚ) * cfg.sampleRateHz / cfg.frameN|
            + |(k : ℚ) * cfg.sampleRateHz / cfg.frameN - b| := abs_sub_le ..
      _ < 20 + 20 := add_lt_add ha hb
      _ = 40 := by norm_num
  rw [tolHz, ← Nat.cast_lt (α := ℚ), Nat.cast_natAbs]
  exact_mod_cast hclose

/-- Settles O46: the two bits, and R43's bound from one bin in both windows. -/
theorem classifyPairsPredicates : Obligations.ClassifyPairsPredicates := by
  refine fun s => ⟨classify s.cfg s.args.bin, rfl, clsOf_getLsbD_zero .., clsOf_getLsbD_one .., ?_⟩
  intro hboth
  obtain ⟨hstart, hend⟩ := (clsOf_eq_both_iff ..).mp hboth
  exact natAbs_sub_lt_of_withinTol hstart hend

end Sys2Proof.Machine
end

section
/-!
PROOF. 42_assembler.md: the loop of R64 computes the closed form of R65, the length and truncation law
(R66) and the round trip through EXPAND (R67). The bit string is a function `f : ℕ → Bool`, `f 0` sent
first; the state of the loop after `n` bits is the closed form `packed f n`.
-/
namespace Sys2Proof.Machine

/-! ### Numbers read most-significant bit first -/

theorem bitsToNat_congr {f g : ℕ → Bool} {n : ℕ} (hfg : ∀ t < n, f t = g t) :
    bitsToNat f n = bitsToNat g n := by
  induction n with
  | zero => rfl
  | succ n ih => rw [bitsToNat, bitsToNat, hfg n n.lt_succ_self, ih fun t ht => hfg t (by omega)]

theorem bitsToNat_lt (f : ℕ → Bool) (n : ℕ) : bitsToNat f n < 2 ^ n := by
  induction n with
  | zero => exact Nat.one_pos
  | succ n ih =>
    have hbit := (f n).toNat_le
    rw [bitsToNat]
    omega

/-- Reading on: the bits read so far move up by as many places as the bits that join them. -/
theorem bitsToNat_add (f : ℕ → Bool) (m n : ℕ) :
    bitsToNat f (m + n) = bitsToNat f m <<< n ||| bitsToNat (fun t => f (m + t)) n := by
  rw [← Nat.shiftLeft_add_eq_or_of_lt (bitsToNat_lt _ n), Nat.shiftLeft_eq]
  induction n with
  | zero => simp [bitsToNat]
  | succ n ih =>
    rw [← add_assoc, bitsToNat, bitsToNat, ih]
    ring

theorem testBit_bitsToNat (f : ℕ → Bool) {n t : ℕ} (ht : t < n) :
    (bitsToNat f n).testBit (n - 1 - t) = f t := by
  induction n with
  | zero => omega
  | succ n ih =>
    have hbit := (f n).toNat_lt
    rw [bitsToNat]
    obtain hlt | rfl := Nat.lt_succ_iff_lt_or_eq.mp ht
    · have hplace : n + 1 - 1 - t = n - 1 - t + 1 := by omega
      have hhalf : (2 * bitsToNat f n + (f n).toNat) / 2 = bitsToNat f n := by omega
      rw [hplace, Nat.testBit_succ, hhalf, ih hlt]
    · rw [show t + 1 - 1 - t = 0 by omega, Nat.testBit_zero]
      cases f t <;> simp

/-- The bits of a number, read back, are the number modulo the width read. -/
theorem bitsToNat_testBit (c n : ℕ) : bitsToNat (fun t => c.testBit (n - 1 - t)) n = c % 2 ^ n := by
  induction n generalizing c with
  | zero => exact (Nat.mod_one c).symm
  | succ n ih =>
    have hupper : bitsToNat (fun t => c.testBit (n + 1 - 1 - t)) n = c / 2 % 2 ^ n := by
      rw [← ih]
      refine bitsToNat_congr fun t ht => ?_
      rw [← Nat.testBit_succ]
      congr 1
      omega
    have hlowest : (c.testBit (n + 1 - 1 - n)).toNat = c % 2 := by
      rw [show n + 1 - 1 - n = 0 by omega, Nat.toNat_testBit]
      simp
    rw [bitsToNat, hupper, hlowest, pow_succ', Nat.mod_mul, add_comm]

/-! ### The loop of R64 in closed form -/

/-- Byte `j` of the bit string `f`, `f (8*j)` its bit 7 (42_assembler.md R65). -/
def byteOfBits (f : ℕ → Bool) (j : ℕ) : Byte := BitVec.ofNat 8 (bitsToNat (fun t => f (8 * j + t)) 8)

/-- The variables of R64's loop after the first `n` bits of `f`: the whole bytes are out, the rest is in
the accumulator. -/
def packed (f : ℕ → Bool) (n : ℕ) : Packer where
  out := (List.range (n / 8)).map (byteOfBits f)
  acc := bitsToNat (fun t => f (8 * (n / 8) + t)) (n % 8)
  need := 8 - n % 8

theorem packed_zero (f : ℕ → Bool) : packed f 0 = packerStart := rfl

@[simp] theorem packed_out_length (f : ℕ → Bool) (n : ℕ) : (packed f n).out.length = n / 8 := by
  simp [packed]

theorem packed_out_prefix (f : ℕ → Bool) {m n : ℕ} (hmn : m ≤ n) :
    (packed f m).out <+: (packed f n).out := by
  have hbytes : m / 8 ≤ n / 8 := Nat.div_le_div_right hmn
  refine List.IsPrefix.map _ (List.prefix_iff_eq_take.mpr ?_)
  rw [List.length_range, List.take_range, min_eq_left hbytes]

/-- The bytes out spell the bit string. -/
theorem streamBit_packed_out (f : ℕ → Bool) {n i : ℕ} (hi : i < 8 * (n / 8)) :
    streamBit (packed f n).out i = f i := by
  have hbyte : (packed f n).out.getD (i / 8) 0 = byteOfBits f (i / 8) := by
    simp [packed, List.getD_eq_getElem?_getD, show i / 8 < n / 8 by omega]
  rw [streamBit, hbyte, byteOfBits, BitVec.getLsbD_ofNat,
    testBit_bitsToNat (n := 8) _ (Nat.mod_lt i (by omega)), Nat.div_add_mod,
    decide_eq_true (show 7 - i % 8 < 8 by omega), Bool.true_and]

/-- The bits one pass takes: `take` bits from the most-significant unread end of `c`. -/
theorem takenBits_eq (c : ℕ) {take rem : ℕ} (htake : take ≤ rem) :
    c >>> (rem - take) &&& (2 ^ take - 1) = bitsToNat (fun t => c.testBit (rem - 1 - t)) take := by
  rw [Nat.and_two_pow_sub_one_eq_mod, ← bitsToNat_testBit]
  refine bitsToNat_congr fun t ht => ?_
  rw [Nat.testBit_shiftRight]
  congr 1
  omega

/-- One pass of the inner loop, when `f` goes on with the unread bits of `c`. -/
theorem packTake_packed {f : ℕ → Bool} {c rem n : ℕ}
    (hbits : ∀ t < rem, f (n + t) = c.testBit (rem - 1 - t)) :
    packTake c rem (packed f n) = packed f (n + min (8 - n % 8) rem) := by
  set take := min (8 - n % 8) rem with htake
  have hacc : (packed f n).acc <<< take ||| (c >>> (rem - take) &&& (2 ^ take - 1))
      = bitsToNat (fun t => f (8 * (n / 8) + t)) (n % 8 + take) := by
    rw [takenBits_eq c (by omega), bitsToNat_add]
    congr 1
    refine bitsToNat_congr fun t ht => ?_
    rw [← hbits t (by omega), ← add_assoc, Nat.div_add_mod]
  have hneed : (packed f n).need = 8 - n % 8 := rfl
  rw [packTake, hneed, ← htake, hacc]
  split
  next hfull =>
    have hbyte : n % 8 + take = 8 := by omega
    have hdiv : (n + take) / 8 = n / 8 + 1 := by omega
    have hmod : (n + take) % 8 = 0 := by omega
    rw [hbyte, packed, packed, hdiv, hmod, List.range_succ, List.map_append]
    rfl
  next hpart =>
    have hdiv : (n + take) / 8 = n / 8 := by omega
    have hmod : (n + take) % 8 = n % 8 + take := by omega
    rw [packed, packed, hdiv, hmod, Nat.sub_sub]

/-- The inner loop consumes the `rem` unread bits of a chunk. -/
theorem packChunk_packed {f : ℕ → Bool} {c fuel rem n : ℕ} (hfuel : rem ≤ fuel)
    (hbits : ∀ t < rem, f (n + t) = c.testBit (rem - 1 - t)) :
    packChunk c fuel rem (packed f n) = packed f (n + rem) := by
  induction fuel generalizing rem n with
  | zero =>
    obtain rfl : rem = 0 := by omega
    rfl
  | succ fuel ih =>
    rw [packChunk]
    split
    next hdone => rw [hdone, add_zero]
    next hunread =>
      have hneed : (packed f n).need = 8 - n % 8 := rfl
      rw [packTake_packed hbits, hneed, ih (by omega)]
      · congr 1
        omega
      · intro t ht
        rw [add_assoc, hbits _ (by omega)]
        congr 1
        omega

/-- Bit `i` of the chunks laid end to end, each most-significant bit first: R65's `B[i]`. -/
def chunkBit (w : ℕ) (cs : List ℕ) (i : ℕ) : Bool := (cs.getD (i / w) 0).testBit (w - 1 - i % w)

theorem chunkBit_cons_of_lt {w t : ℕ} (c : ℕ) (cs : List ℕ) (ht : t < w) :
    chunkBit w (c :: cs) t = c.testBit (w - 1 - t) := by
  rw [chunkBit, Nat.div_eq_of_lt ht, Nat.mod_eq_of_lt ht, List.getD_cons_zero]

theorem chunkBit_cons_add {w : ℕ} (hw : 0 < w) (c : ℕ) (cs : List ℕ) (i : ℕ) :
    chunkBit w (c :: cs) (w + i) = chunkBit w cs i := by
  rw [chunkBit, Nat.add_div_left i hw, Nat.add_mod_left, List.getD_cons_succ, chunkBit]

theorem chunkBit_append {w i : ℕ} {cs : List ℕ} (ds : List ℕ) (hi : i < cs.length * w) :
    chunkBit w (cs ++ ds) i = chunkBit w cs i := by
  rw [chunkBit, List.getD_append _ _ _ _ (Nat.div_lt_of_lt_mul (by rwa [mul_comm])), chunkBit]

/-- The outer loop consumes the bits of all the chunks. -/
theorem packChunks_packed {w : ℕ} {cs : List ℕ} {f : ℕ → Bool} {n : ℕ}
    (hbits : ∀ i < cs.length * w, f (n + i) = chunkBit w cs i) :
    packChunks w cs (packed f n) = packed f (n + cs.length * w) := by
  induction cs generalizing n with
  | nil => rw [List.length_nil, zero_mul]; rfl
  | cons c cs ih =>
    have hlen : (c :: cs).length * w = w + cs.length * w := by
      rw [List.length_cons, add_one_mul, add_comm]
    rw [hlen] at hbits ⊢
    have hchunk : packChunk c w w (packed f n) = packed f (n + w) :=
      packChunk_packed le_rfl fun t ht => by
        rw [hbits t (by omega), chunkBit_cons_of_lt c cs ht]
    rw [packChunks, hchunk, ih, add_assoc]
    intro i hi
    have hw : 0 < w := Nat.pos_of_mul_pos_left (Nat.zero_lt_of_lt hi)
    rw [add_assoc, hbits _ (by omega), chunkBit_cons_add hw]

/-- ASSEMBLE by any bit string that starts with the bits of the chunks. -/
theorem assemble_eq_packed_out {w : ℕ} {cs : List ℕ} {f : ℕ → Bool}
    (hbits : ∀ i < cs.length * w, f i = chunkBit w cs i) :
    assemble w cs = (packed f (cs.length * w)).out := by
  rw [assemble, ← packed_zero f, packChunks_packed, zero_add]
  intro i hi
  rw [zero_add, hbits i hi]

/-! ### The laws of ASSEMBLE (R65 to R67) -/

theorem assemble_length (w : ℕ) (cs : List ℕ) : (assemble w cs).length = cs.length * w / 8 := by
  rw [assemble_eq_packed_out fun _ _ => rfl, packed_out_length]

/-- The bytes spell the bits of the chunks. -/
theorem streamBit_assemble {w : ℕ} {cs : List ℕ} {i : ℕ} (hi : i < 8 * (assemble w cs).length) :
    streamBit (assemble w cs) i = chunkBit w cs i := by
  rw [assemble_length] at hi
  rw [assemble_eq_packed_out fun _ _ => rfl, streamBit_packed_out _ hi]

theorem assemble_prefix_append (w : ℕ) (cs ds : List ℕ) : assemble w cs <+: assemble w (cs ++ ds) := by
  rw [assemble_eq_packed_out (f := chunkBit w (cs ++ ds)) fun _ hi => chunkBit_append ds hi,
    assemble_eq_packed_out (f := chunkBit w (cs ++ ds)) fun _ _ => rfl, List.length_append]
  exact packed_out_prefix _ (Nat.mul_le_mul_right w (Nat.le_add_right ..))

/-- Settles O48: bit `7 - t` of byte `j` is bit `8*j + t` of the byte stream. -/
theorem assembleIsBigEndianBitstream : Obligations.AssembleIsBigEndianBitstream := by
  refine fun s => ⟨assemble s.args.width s.args.chunks, rfl, assemble_length .., fun j hj t ht => ?_⟩
  have hbit := streamBit_assemble (w := s.args.width) (cs := s.args.chunks) (i := 8 * j + t) (by omega)
  rwa [streamBit, show (8 * j + t) / 8 = j by omega, show (8 * j + t) % 8 = t by omega] at hbit

/-- Settles O49: the length, the bits not emitted, and that more chunks only add bytes. -/
theorem assembleLengthAndPrefix : Obligations.AssembleLengthAndPrefix := fun w cs ds =>
  ⟨assemble_length w cs, by rw [assemble_length, Nat.div_add_mod], assemble_prefix_append w cs ds⟩

/-- A chunk below `2^w` is the number its `w` bits of the bit string spell. -/
theorem bitsToNat_chunkBit {w j : ℕ} {cs : List ℕ} (hj : j < cs.length) (hchunk : cs[j] < 2 ^ w) :
    bitsToNat (fun t => chunkBit w cs (j * w + t)) w = cs[j] := by
  calc bitsToNat (fun t => chunkBit w cs (j * w + t)) w
      = bitsToNat (fun t => cs[j].testBit (w - 1 - t)) w := by
        refine bitsToNat_congr fun t ht => ?_
        have hdiv : (j * w + t) / w = j := by
          rw [Nat.div_eq_iff (by omega)]
          omega
        rw [chunkBit, hdiv, Nat.mul_add_mod', Nat.mod_eq_of_lt ht, List.getD_eq_getElem _ _ hj]
    _ = cs[j] % 2 ^ w := bitsToNat_testBit ..
    _ = cs[j] := Nat.mod_eq_of_lt hchunk

/-- Settles O50: with no bit left over, the bytes spell every chunk whole. -/
theorem expandOfAssemble : Obligations.ExpandOfAssemble := by
  intro w cs hw hcs hwhole
  have hbits : 8 * (assemble w cs).length = cs.length * w := by
    rw [assemble_length, Nat.mul_div_cancel' (Nat.dvd_of_mod_eq_zero hwhole)]
  have hlen : 8 * (assemble w cs).length / w = cs.length := by rw [hbits, Nat.mul_div_cancel _ hw]
  rw [expand, hlen]
  refine List.ext_getElem (by simp) fun j _ hj => ?_
  rw [List.getElem_map, List.getElem_range, ← bitsToNat_chunkBit hj (hcs _ (List.getElem_mem hj))]
  refine bitsToNat_congr fun t ht => streamBit_assemble ?_
  calc j * w + t < (j + 1) * w := by rw [add_one_mul]; omega
    _ ≤ cs.length * w := Nat.mul_le_mul_right w hj
    _ = 8 * (assemble w cs).length := hbits.symm

end Sys2Proof.Machine
end

section
/-!
PROOF. 43_framer.md: the frame step with `cancel` high (R68), the framer rows (R69 to R73), EVENIDX
(R74), FINALIZE (R75) and DISPATCH (R76).
-/
namespace Sys2Proof.Machine

/-! ### The frame step with `cancel` high (R68; 44_control.md R78) -/

/-- Settles O22: STOP applied to the state the frame step of a completed frame leaves. -/
theorem sampleCompletesFrameThenStops : Obligations.SampleCompletesFrameThenStops := by
  rintro s k hrun hlen hcancel rfl
  have hwords : (s.obs.words ++ [0x20#8, frameStepWord s.cfg s.completedBin s.st]) ++ [0xC0#8]
      = s.obs.words ++ [0x20#8, frameStepWord s.cfg s.completedBin s.st, 0xC0#8] :=
    List.append_assoc ..
  have hframe := afterFrameWord_atBoundary s s.completedBin
  rw [exec_sample_of_completesFrame ⟨hrun, hlen.ge⟩, hcancel, frameStep_eq, if_pos rfl]
  refine congrArg Host.Outcome.next ((congrArg stopRun hframe).trans ?_)
  rw [stopRun_eq, hwords]
  rfl

/-! ### The framer rows (R69 to R73) -/

/-- The framer operation whose word the state produces takes the framer's transition. -/
theorem exec_frameRow_of_framerTable {i : Instr} {s : State} {c : Core} (hrow : isFrameRow i = true)
    (hat : s.atFrame) (hword : frameStepWord s.cfg s.args.bin s.st = encode i)
    (htable : framerTable s.cfg s.args.bin s.st = c) :
    exec i s = .next (afterFrameWord s (encode i) s.args.bin c) := by
  obtain ⟨row, hrun⟩ := exec_frameRow hrow s
  have hnext : exec i s = .next (takeRow (encode i) s.args.bin (row s.st) s) :=
    hrun.trans (if_pos ((frameReady_iff _ _).mpr ⟨hat, hword⟩))
  obtain ⟨-, -, hresult⟩ := exec_frameRow_next hrow hnext
  rw [hnext, hresult, htable]

section
variable {cfg : Config} {st : Core} {k : ℕ}

/-- In IDLE every tone but the start tone is discarded (R70). -/
theorem framerTable_idle_other (hidle : st.fr = .idle) (hstart : hsStart cfg k = false) :
    framerTable cfg k st = st := by
  simp [framerTable, hidle, hstart]

/-- The end tone ends an open packet (R73). -/
theorem framerTable_end (hin : st.fr = .inPkt) (hend : hsEnd cfg k = true) :
    framerTable cfg k st = packetEnded cfg st := by
  simp [framerTable, hin, hend]

/-- Any other tone overflows a full packet (R72). -/
theorem framerTable_full (hin : st.fr = .inPkt) (hend : hsEnd cfg k = false)
    (hfull : st.pkt.length = cfg.pktMax) : framerTable cfg k st = packetOverflowed cfg st := by
  simp [framerTable, hin, hend, hfull]

/-- Any other tone joins a packet with room (R71). -/
theorem framerTable_append (hin : st.fr = .inPkt) (hend : hsEnd cfg k = false)
    (hroom : st.pkt.length ≠ cfg.pktMax) : framerTable cfg k st = pktAppend k st := by
  simp [framerTable, hin, hend, hroom, pktAppend]

/-- The word of a frame step in IDLE (30_encoding.md R46). -/
theorem frameStepWord_idle (hidle : st.fr = .idle) :
    frameStepWord cfg k st = frameBits false false (hsStart cfg k) (hsEnd cfg k) := by
  simp [frameStepWord, hidle]

/-- The word of a frame step in INPKT: `full` compares the packet's length with PKT_MAX (30_encoding.md
R46). -/
theorem frameStepWord_inPkt (hin : st.fr = .inPkt) :
    frameStepWord cfg k st
      = frameBits (decide (st.pkt.length = cfg.pktMax)) true (hsStart cfg k) (hsEnd cfg k) := by
  simp [frameStepWord, hin]

end

/-- Settles O30: the first row of the framer table in IDLE. -/
theorem idleStartOpensPacket : Obligations.IdleStartOpensPacket := by
  intro s hat hidle hstart
  refine exec_frameRow_of_framerTable rfl hat ?_ (framerTable_start hidle hstart)
  rw [frameStepWord_idle hidle, hstart, encode]

/-- Settles O31: the other row of the framer table in IDLE. -/
theorem idleOtherChangesNothing : Obligations.IdleOtherChangesNothing := by
  intro s hat hidle hstart
  refine exec_frameRow_of_framerTable rfl hat ?_ (framerTable_idle_other hidle hstart)
  rw [frameStepWord_idle hidle, hstart, encode]

/-- Settles O32: a packet below the bound is not full. -/
theorem pktAppendCollectsBin : Obligations.PktAppendCollectsBin := by
  intro s hat hin hend hroom
  refine exec_frameRow_of_framerTable rfl hat ?_ (framerTable_append hin hend hroom.ne)
  rw [frameStepWord_inPkt hin, hend, decide_eq_false hroom.ne, encode]

/-- Settles O33: by the policy, and under HOLD by whether the packet overflowed before. -/
theorem pktFullHoldsOrAborts : Obligations.PktFullHoldsOrAborts := by
  intro s hat hin hend hfull
  refine exec_frameRow_of_framerTable rfl hat ?_ ((framerTable_full hin hend hfull).trans ?_)
  · rw [frameStepWord_inPkt hin, hend, decide_eq_true hfull, encode]
  · unfold packetOverflowed
    cases s.cfg.ovfPolicy with
    | hold => cases s.st.povf <;> rfl
    | abort => rfl

/-- Settles O34: the packet is closed after the hand-over as after the drop. -/
theorem pktEndDispatchesAndReturnsToIdle : Obligations.PktEndDispatchesAndReturnsToIdle := by
  rintro s full hat hin hend rfl
  refine exec_frameRow_of_framerTable rfl hat ?_ ((framerTable_end hin hend).trans ?_)
  · rw [frameStepWord_inPkt hin, hend, encode]
  · rw [packetEnded_eq_closePacket, apply_ite closePacket]
    rfl

/-! ### EVENIDX and FINALIZE (R74, R75) -/

/-- Settles O51: the length and the elements of `evenIdx`. -/
theorem evenidxKeepsEvenPositions : Obligations.EvenidxKeepsEvenPositions := fun s =>
  ⟨evenIdx s.args.bins, rfl, length_evenIdx _, evenIdx_getElem? _⟩

/-- The even positions, read off one by one. -/
theorem evenIdx_eq_map_range {α : Type} (xs : List α) (d : α) :
    evenIdx xs = (List.range ((xs.length + 1) / 2)).map fun n => xs.getD (2 * n) d := by
  refine List.ext_getElem (by simp [length_evenIdx]) fun n hn _ => ?_
  rw [List.getElem_map, List.getElem_range, List.getD_eq_getElem?_getD, ← evenIdx_getElem?,
    List.getElem?_eq_getElem hn, Option.getD_some]

theorem exec_finalize (s : State) :
    exec .finalize s = .next (answer (.bytes (finalize s.cfg s.args.bins)) s) := rfl

/-- Settles O52: FINALIZE packs the accepted even positions, and ASSEMBLE's length law. -/
theorem finalizeDemodulatesEvenBins : Obligations.FinalizeDemodulatesEvenBins := by
  rintro s syms rfl
  refine ⟨?_, assemble_length ..⟩
  rw [exec_finalize, finalize, keepSome_eq_filterMap, evenIdx_eq_map_range s.args.bins 0]
  rfl

/-- Settles O53: FINALIZE reads a packet through `evenIdx` only. -/
theorem finalizeIgnoresOddPositions : Obligations.FinalizeIgnoresOddPositions := by
  intro cfg p q _ hsame
  have heven : evenIdx p = evenIdx q :=
    List.ext_getElem? fun n => by rw [evenIdx_getElem?, evenIdx_getElem?, hsame]
  rw [finalize, finalize, heven]

/-! ### DISPATCH (R76) -/

theorem exec_dispatch (s : State) :
    exec .dispatch s = .next (setCore (streamHandedOver s.cfg s.args.bytes s.st) s) := by
  rw [← dispatch_eq]
  rfl

/-- Settles O54: DISPATCH hands over its operand. -/
theorem dispatchAllOrNothing : Obligations.DispatchAllOrNothing := exec_dispatch

end Sys2Proof.Machine
end

section
/-!
PROOF. 44_control.md: RESET (R77), STOP (R78), CAPFAIL (R79), the OUT operations (R80, R81), and the
terminal states (R82).
-/
namespace Sys2Proof.Machine

/-! ### RESET (R77) -/

theorem exec_reset (s : State) :
    exec .reset s
      = .next (logWord 0x00#8 { setCore Core.reset s with booted := true, frOut := none }) := rfl

/-- Settles O9: the record after RESET is that of R25, written out. -/
theorem resetWritesEveryField : Obligations.ResetWritesEveryField := exec_reset

/-! ### STOP and `cancel` (R78; 70_reset_and_hazards.md R105) -/

theorem exec_stop_of_ready {s : State} (hrun : s.st.run = .run) (hboundary : s.st.fbuf = [])
    (hcancel : s.ports.cancel = true) : exec .stop s = .next (stopRun s) :=
  if_pos ((stopReady_iff s).mpr ⟨hrun, hboundary, hcancel⟩)

/-- Settles O24: under its conditions STOP runs, and `stopRun_eq` gives what it writes. -/
theorem stopDiscardsPacketKeepsQueue : Obligations.StopDiscardsPacketKeepsQueue := by
  intro s hrun hboundary hcancel
  rw [exec_stop_of_ready hrun hboundary hcancel, stopRun_eq]

/-- Settles O25: neither the ignored nor the gathered sample reaches the frame step. -/
theorem cancelReadOnlyAtFrameStep : Obligations.CancelReadOnlyAtFrameStep := by
  intro s c hlen
  by_cases hrun : s.st.run = .run
  · exact ⟨_, exec_sample_of_partial hrun hlen,
      exec_sample_of_partial (s := { s with ports := { s.ports with cancel := c } }) hrun hlen⟩
  · exact ⟨s, exec_sample_of_not_run hrun, exec_sample_of_not_run hrun⟩

/-! ### CAPFAIL (R79) -/

theorem exec_capfail_of_run {s : State} (hrun : s.st.run = .run) :
    exec .capfail s = .next
      (logWord 0x80#8 (setCore (record .captureFail (enterTerminal .halted (fbufClear s.st))) s)) :=
  if_pos hrun

theorem exec_capfail_of_not_run {s : State} (hterm : s.st.run ≠ .run) :
    exec .capfail s = .next s := if_neg hterm

/-- The record a capture failure leaves (R79; 60_exceptions.md R84, R89). -/
theorem record_captureFail_halted (st : Core) :
    record .captureFail (enterTerminal .halted (fbufClear st)) =
      { st with
        run := .halted, fbuf := [], pkt := [], fr := .idle, povf := false, errCap := true,
        lastErr := 2 } := by
  simp [record, errCode, enterTerminal, closePacket, fbufClear]

/-- Settles O23: by whether the core runs. -/
theorem capfailHaltsOnce : Obligations.CapfailHaltsOnce := by
  intro s
  split
  next hrun =>
    rw [exec_capfail_of_run hrun, record_captureFail_halted]
    rfl
  next hterm => exact exec_capfail_of_not_run hterm

/-! ### OUT_BYTE and OUT_EMPTY (R80, R81) -/

/-- The OUT operation whose operand is the head beat `b`. -/
def takingInstr : Beat → Instr
  | .byte _ last => .outByte last
  | .empty => .outEmpty

/-- The OUT operation of the head beat takes it, whatever the run state. -/
theorem exec_takingInstr {s : State} {b : Beat} {q : List Beat} (hq : s.st.outq = b :: q) :
    exec (takingInstr b) s = .next (takeBeat b s) := by
  cases b with
  | byte v last =>
    change execOutByte last s = _
    simp [execOutByte, hq]
  | empty =>
    change execOutEmpty s = _
    simp [execOutEmpty, hq]

/-- Taking the head beat moves it from the queue to the observation and leaves its word. -/
theorem takeBeat_of_head {s : State} {b : Beat} {q : List Beat} (hq : s.st.outq = b :: q) :
    takeBeat b s =
      { s with
        st := { s.st with outq := q }
        obs :=
          { s.obs with words := s.obs.words ++ [beatWord b], beats := s.obs.beats ++ [b] } } := by
  rw [takeBeat_eq, hq, List.tail_cons]

theorem beatWord_byte (v : Byte) (last : Bool) :
    beatWord (.byte v last) = if last then 0x62#8 else 0x60#8 := by
  cases last <;> rfl

/-- Settles O26: a byte beat is taken by OUT_BYTE with its own last bit. -/
theorem outByteTakesHead : Obligations.OutByteTakesHead := by
  intro s b last q hq
  rw [← beatWord_byte b last, ← takeBeat_of_head hq]
  exact exec_takingInstr hq

/-- Settles O27: the marker is taken by OUT_EMPTY. -/
theorem outEmptyTakesMarker : Obligations.OutEmptyTakesMarker := by
  intro s q hq
  exact (exec_takingInstr hq).trans (congrArg Host.Outcome.next (takeBeat_of_head hq))

/-! ### The terminal states (R82) -/

/-- Outside RUN no operation but RESET changes the run state: every effect that would needs a running
core. -/
theorem Effect.run_of_terminal {i : Instr} {s t : State} (h : Effect s i t) (hterm : s.st.run ≠ .run)
    (hreset : i ≠ .reset) : t.st.run = s.st.run := by
  cases h with
  | reset => exact absurd rfl hreset
  | sampleGathered hrun | captureFailed hrun | stopped hrun => exact absurd hrun hterm
  | frameCompleted hdone => exact absurd hdone.1 hterm
  | frameRow hat => exact absurd hat.1 hterm
  | dispatched => exact streamHandedOver_run ..
  | sampleIgnored | byteTaken | markerTaken | capfailIgnored | answered => rfl

theorem takingInstr_cases (b : Beat) :
    (∃ last, takingInstr b = .outByte last) ∨ takingInstr b = .outEmpty := by
  cases b with
  | byte _ last => exact .inl ⟨last, rfl⟩
  | empty => exact .inr rfl

/-- Settles O28: the input events are ignored, the OUT operation of the head beat drains it, and of all
effects only RESET's moves `run`. -/
theorem terminalStatesLeftOnlyByReset : Obligations.TerminalStatesLeftOnlyByReset := by
  intro s hterm
  refine ⟨exec_sample_of_not_run hterm, exec_capfail_of_not_run hterm, ?drains, ?keepsRun,
    _, exec_reset s, rfl⟩
  case drains =>
    intro b q hq
    exact ⟨takingInstr b, _, takingInstr_cases b, exec_takingInstr hq, by rw [takeBeat_of_head hq]⟩
  case keepsRun =>
    intro i t hreset hexec
    exact (exec_effect hexec).run_of_terminal hterm hreset

end Sys2Proof.Machine
end

section
/-!
PROOF. What `record` writes (60_exceptions.md R83, R84): the three codes that own a sticky bit, and the
codes that own none.
-/
namespace Sys2Proof.Machine

theorem record_captureFail_eq (st : Core) :
    record .captureFail st = { st with errCap := true, lastErr := 2 } := by
  simp [record, errCode]

theorem record_pktOverflow_eq (st : Core) :
    record .pktOverflow st = { st with errPktovf := true, lastErr := 3 } := by
  simp [record, errCode]

theorem record_outqOverflow_eq (st : Core) :
    record .outqOverflow st = { st with errOutqovf := true, lastErr := 4 } := by
  simp [record, errCode]

/-- A code that owns no sticky bit leaves all three as they were. -/
theorem record_eq_of_no_sticky {c : ErrCode} (st : Core) (hcap : c ≠ .captureFail)
    (hpkt : c ≠ .pktOverflow) (houtq : c ≠ .outqOverflow) :
    record c st = { st with lastErr := errCode c } := by
  simp [record, hcap, hpkt, houtq]

/-- Settles O14: each code with a sticky bit, then the codes without one. -/
theorem recordWritesStickyBitAndCode : Obligations.RecordWritesStickyBitAndCode := fun st =>
  ⟨record_captureFail_eq st, record_pktOverflow_eq st, record_outqOverflow_eq st,
    fun _ => record_eq_of_no_sticky st⟩

end Sys2Proof.Machine
end

section
/-!
PROOF. 70_reset_and_hazards.md: no operation before the first RESET (R96), and two of the configuration
requirements of R97: item 2a keeps data and handshake tones apart, and item 6 sizes the output queue for
every packet.
-/
namespace Sys2Proof.Machine

/-! ### Before the first RESET (R96) -/

/-- A machine that was never reset may take RESET only. -/
theorem mayTake_eq_false {i : Instr} {s : State} (hbooted : s.booted = false) (hreset : i ≠ .reset) :
    mayTake i s = false := by
  simp [mayTake, hbooted, hreset]

/-- Settles O6: the word decodes, and only then the step finds that it may not take it. -/
theorem firstStepMustBeReset : Obligations.FirstStepMustBeReset := by
  intro s w ws i hpending hdecode hbooted hreset
  unfold step
  rw [hpending]
  simp only [hdecode]
  exact if_neg (Bool.eq_false_iff.mp (mayTake_eq_false hbooted hreset))

/-! ### Handshake windows and symbol cells (R97 items 2 and 2a)

Frequencies are compared as whole numbers: twice the frequency of bin `k`, times N, is `2*(k*R)`. -/

section
variable {cfg : Config} {k : ℕ}

/-- A bin that QUANT accepts lies in the symbol cells, which reach half a step to either side of the
first and of the last data tone. -/
theorem symbolCells_of_quant {q : ℕ} (hquant : quant cfg k = some q) :
    (2 * cfg.startHz - cfg.stepHz : ℤ) * cfg.frameN ≤ 2 * (k * cfg.sampleRateHz)
      ∧ 2 * (k * cfg.sampleRateHz : ℤ)
          ≤ (2 * cfg.startHz + (2 ^ (cfg.bits + 1) - 1) * cfg.stepHz) * cfg.frameN := by
  obtain ⟨hlt, hrne⟩ := quant_eq_some_iff.mp hquant
  have hden : 0 < (cfg.stepHz : ℤ) * cfg.frameN := by
    exact_mod_cast Nat.mul_pos (config_stepHz_pos cfg) (config_frameN_pos cfg)
  have hnear := two_mul_abs_sub_rne_le (num := scaledOffset cfg k cfg.startHz) hden
  rw [hrne, scaledOffset] at hnear
  have habove := le_abs_self
    ((k : ℤ) * cfg.sampleRateHz - cfg.startHz * cfg.frameN - q * (cfg.stepHz * cfg.frameN))
  have hbelow := neg_le_abs
    ((k : ℤ) * cfg.sampleRateHz - cfg.startHz * cfg.frameN - q * (cfg.stepHz * cfg.frameN))
  have hfirst : 0 ≤ (q : ℤ) * (cfg.stepHz * cfg.frameN) := by positivity
  have hlast : (q : ℤ) * (cfg.stepHz * cfg.frameN)
      ≤ (2 ^ cfg.bits - 1) * (cfg.stepHz * cfg.frameN) :=
    Int.mul_le_mul_of_nonneg_right (Int.le_sub_one_of_lt (by exact_mod_cast hlt)) hden.le
  rw [pow_succ]
  constructor <;> linarith

/-- A bin that matches a handshake tone lies inside its window. -/
theorem window_of_withinTol {h : ℕ} (hmatch : withinTol cfg k h = true) :
    ((h : ℤ) - 20) * cfg.frameN < k * cfg.sampleRateHz
      ∧ (k * cfg.sampleRateHz : ℤ) < (h + 20) * cfg.frameN := by
  have hdist : |scaledOffset cfg k h| < 20 * cfg.frameN := by
    rw [Int.abs_eq_natAbs]
    exact_mod_cast of_decide_eq_true hmatch
  obtain ⟨hbelow, habove⟩ := abs_lt.mp hdist
  rw [scaledOffset] at hbelow habove
  constructor <;> linarith

/-- A window below the cells ends where they begin, a window above them begins where they end; either
way no bin is in both. -/
theorem withinTol_eq_false_of_handshakeOutside {h q : ℕ} (houtside : cfg.handshakeOutside h)
    (hquant : quant cfg k = some q) : withinTol cfg k h = false := by
  have hN : (0 : ℤ) ≤ cfg.frameN := Int.natCast_nonneg _
  obtain ⟨hcellsLow, hcellsHigh⟩ := symbolCells_of_quant hquant
  rw [Bool.eq_false_iff]
  intro hmatch
  obtain ⟨hwindowLow, hwindowHigh⟩ := window_of_withinTol hmatch
  rcases houtside with hbelow | habove
  · have hends := Int.mul_le_mul_of_nonneg_right hbelow hN
    linarith
  · have hbegins := Int.mul_le_mul_of_nonneg_right habove hN
    linarith

end

/-- Settles O47: an accepted bin is outside the window of each handshake tone. -/
theorem windowsOutsideCellsKeepTonesApart : Obligations.WindowsOutsideCellsKeepTonesApart := by
  intro cfg hstart hend k _ haccepted
  obtain ⟨q, hquant⟩ := Option.ne_none_iff_exists'.mp haccepted
  exact ⟨withinTol_eq_false_of_handshakeOutside hstart hquant,
    withinTol_eq_false_of_handshakeOutside hend hquant⟩

/-! ### The longest stream of a packet (R97 item 6) -/

/-- QUANT drops positions and never adds one, so a packet yields at most `BITS` bits for each of its
even positions. -/
theorem length_finalize_le (cfg : Config) (pkt : List ℕ) :
    (finalize cfg pkt).length ≤ (pkt.length + 1) / 2 * cfg.bits / 8 := by
  have hsymbols : (keepSome (quant cfg) (evenIdx pkt)).length ≤ (pkt.length + 1) / 2 := by
    rw [keepSome_eq_filterMap, ← length_evenIdx]
    exact List.length_filterMap_le ..
  rw [finalize, assemble_length]
  gcongr

/-- The stream of a packet within the bound takes at most `BMAX` beats (R103). -/
theorem length_beatsOfStream_finalize_le {cfg : Config} {pkt : List ℕ}
    (hbound : pkt.length ≤ cfg.pktMax) :
    (beatsOfStream (finalize cfg pkt)).length ≤ cfg.maxStreamBeats := by
  have hbytes : (finalize cfg pkt).length ≤ (cfg.pktMax + 1) / 2 * cfg.bits / 8 :=
    (length_finalize_le cfg pkt).trans (by gcongr)
  rw [length_beatsOfStream, Config.maxStreamBeats]
  exact max_le_max_left 1 hbytes

/-- A stream that fits joins the queue whole (43_framer.md R76). -/
theorem streamHandedOver_of_fits {cfg : Config} {bs : List Byte} {st : Core}
    (hfits : st.outq.length + (beatsOfStream bs).length ≤ cfg.outqDepth) :
    streamHandedOver cfg bs st = { st with outq := st.outq ++ beatsOfStream bs } :=
  if_pos hfits

/-- Settles O55: the packet is within its bound, so its stream fits in the empty queue. -/
theorem packetFitsEmptyQueue : Obligations.PacketFitsEmptyQueue := by
  intro cfg st hdepth hinv hempty hpovf
  have hfits : st.outq.length + (beatsOfStream (finalize cfg st.pkt)).length ≤ cfg.outqDepth := by
    rw [hempty, List.length_nil, Nat.zero_add]
    exact (length_beatsOfStream_finalize_le hinv.pkt_le).trans hdepth
  have hrow : rowPktEnd cfg st
      = closePacket { st with outq := beatsOfStream (finalize cfg st.pkt) } := by
    rw [rowPktEnd_eq, packetEnded_eq_closePacket, if_neg (Bool.eq_false_iff.mp hpovf),
      streamHandedOver_of_fits hfits, hempty, List.nil_append]
  rw [hrow]
  exact ⟨rfl, rfl, rfl⟩

end Sys2Proof.Machine
end

section
/-!
PROOF. A step with a word pending (30_encoding.md R45; log 9): the operation the word decodes to runs in
a started machine, and RESET runs in any.
-/
namespace Sys2Proof.Machine

/-- RESET may be taken before the first RESET too (70_reset_and_hazards.md R96). -/
theorem mayTake_reset (s : State) : mayTake .reset s = true := by
  simp [mayTake]

/-- A machine with a RESET word pending runs it, started or not. -/
theorem step_of_pending_reset {s : State} {w : EventWord} {ws : List EventWord}
    (hpending : s.pending = w :: ws) (hdecode : decode w = .ok .reset) :
    step s = exec .reset { s with pending := ws } := by
  unfold step
  rw [hpending]
  simp only [hdecode]
  exact if_pos (mayTake_reset s)

/-- Settles O5: the two cases in which the step may take its word. -/
theorem stepRunsDecodedOperation : Obligations.StepRunsDecodedOperation := by
  intro s w ws i hpending hdecode hmay
  rcases hmay with hbooted | rfl
  · exact step_of_pending_cons hbooted hpending hdecode
  · exact step_of_pending_reset hpending hdecode

end Sys2Proof.Machine
end
